-- ==== Sys2Proof/Word.lean ====
section
/-! DEFINITION. The word types of the block: sizes only (00_scope R8: fixed widths). -/

namespace Sys2Proof

/-- Eight bits: the completion's error code (R82) and one byte of a transaction. -/
abbrev Byte := BitVec 8

/-- Sixteen bits: counts, levels, thresholds, the DMA index (R8) and the transaction header (R80). -/
abbrev Half := BitVec 16

/-- Thirty-two bits: host bus data and sample words (R8). -/
abbrev Word := BitVec 32

/-- A byte offset in the register window (R81). -/
abbrev Offset := BitVec 12

end Sys2Proof
end

