-- ==== Sys2Proof/Config.lean ====
section
/-! DEFINITION. The implementation parameters of 00_scope R8 and the values the spec leaves OPEN. -/

namespace Sys2Proof

/-- The parameters of R8: "The model takes these parameters as arguments. Each is fixed for the life of one
instance." They stand in State because the form of the machine's functions has no other argument (log 4,
DESIGN CHOICE, safe); no step changes them. The 16-bit fields carry the upper ends of R8's ranges. -/
structure Params where
  /-- P_CAPACITY: sample-buffer capacity in 32-bit words, 1 to 65535. -/
  capacity : Half
  /-- P_NOMINAL_RESET. -/
  nominalReset : Half
  /-- P_STEP_RESET. -/
  stepReset : Half
  /-- P_TRIG_RESET. -/
  trigReset : Half
  /-- P_FIFO_DEPTH: depth of the external capture FIFO in samples, 1 to 65535. -/
  fifoDepth : Half
  /-- P_IDLE_REARM: whether a completion re-arms DMA while not recording. -/
  idleRearm : Bool
  /-- P_BASE: byte address of the register window, 4 KiB aligned. R8 gives host addresses no width. -/
  base : Nat
deriving DecidableEq, Repr

/-- The legal ranges of R8 that the fields' types do not already give. -/
def Params.legal (p : Params) : Bool :=
  p.capacity != 0 && p.fifoDepth != 0 && p.base % 4096 == 0

/-- P_TRIG_RESET is OPEN (R31, decision D11, U2): nothing may be proved about its value (log 4). -/
opaque Config.openTrigReset : Half

/-- P_FIFO_DEPTH is OPEN (D29, I10); held as the depth less one, so that it lies in 1 to 65535 (log 4). -/
opaque Config.openFifoDepthLessOne : Fin 65535

/-- P_BASE is OPEN (D7, U3); held as the number of its 4 KiB page (log 4). -/
opaque Config.openBasePage : Nat

/-- The draw `accept` of R187 standing in the reset state before any entry has supplied one (log 2). -/
opaque Config.openAccept : Bool

/-- The draw `restart` of R185 standing in the reset state before any entry has supplied one (log 2). -/
opaque Config.openRestart : Bool

/-- The parameters with the values R8 takes: 52, 48, 4 and true; the OPEN ones opaque. -/
def Params.standard : Params where
  capacity := 52
  nominalReset := 48
  stepReset := 4
  trigReset := Config.openTrigReset
  fifoDepth := BitVec.ofNat 16 (Config.openFifoDepthLessOne.val + 1)
  idleRearm := true
  base := 4096 * Config.openBasePage

end Sys2Proof
end

