-- ==== Sys2Proof/Syntax.lean ====
section
/-! DEFINITION. The operations of the block, one constructor per row of spec/opcode_table.json, and the textual
syntax of R92 and R93 as data. -/

namespace Sys2Proof

/-- The SIZE field of a host header (R81). -/
inductive Size where
  | byte
  | half
  | word
  | reserved
deriving DecidableEq, Repr

/-- The eight registers of the window (R84). -/
inductive Reg where
  | cmd
  | status
  | nominal
  | step
  | trig
  | count
  | level
  | capacity
deriving DecidableEq, Repr

/-- The five error causes (R201). -/
inductive ErrorCause where
  | clamp
  | dmaOor
  | badcmd
  | cfgLock
  | buserr
deriving DecidableEq, Repr

/-- The class of a header, `H[15:14]` (R80). -/
inductive HeaderClass where
  | hostRd
  | hostWr
  | port
  | reserved
deriving DecidableEq, Repr

/-- One operation of the block (R94: 26 rows). Operands as R87 assembles them: data words whole, the fields a
rule uses taken by its meaning. -/
inductive Instr where
  | rdCmd
  | rdStatus
  | rdNominal
  | rdStep
  | rdTrig
  | rdCount
  | rdLevel
  | rdCapacity
  | cmdNop
  | cmdEnable
  | cmdDisable
  | cmdService
  | cmdRsvd (d : Word)
  | wrStatus (d : Word)
  | wrNominal (d : Word)
  | wrStep (d : Word)
  | wrTrig (d : Word)
  | wrCount (d : Word)
  | wrLevel (d : Word)
  | wrCapacity (d : Word)
  | busErrRd (size : Size) (off : Offset)
  | busErrWr (size : Size) (off : Offset) (d : Word)
  | epDone (err : Byte)
  | dmaWr (idx : Half) (data : Word)
  | rsvdPort (port : BitVec 6) (low : Byte)
  | rsvdClass (rest : BitVec 14)
deriving DecidableEq, Repr

/-- The SIZE letters of the raw forms of R92: b, h, w. -/
inductive RawSize where
  | b
  | h
  | w
deriving DecidableEq, Repr

/-- A line of the textual syntax: the forms of R92 and the pseudo-operations of R93. -/
inductive Asm where
  | rd (r : Reg)
  | wr (r : Reg) (imm : Word)
  | rdRaw (s : RawSize) (off : Offset)
  | wrRaw (s : RawSize) (off : Offset) (imm : Word)
  | epDone (err : Byte)
  | dmaWr (idx : Half) (data : Word)
  | nop
  | enable
  | disable
  | service
  | clrerr
  | clr (f : ErrorCause)
deriving DecidableEq, Repr

end Sys2Proof
end

