-- ==== Sys2Proof/WellFormed.lean ====
section
/-! DEFINITION. Which terms of Instr some transaction spells (R81, R85, R86, R89). -/

namespace Sys2Proof

/-- A host access that names a register: SIZE is word and OFFSET one of the eight of R84. -/
def registerAccess (size : Size) (off : Offset) : Bool :=
  size == .word && [0x000, 0x004, 0x008, 0x00C, 0x010, 0x014, 0x018, 0x01C].contains off

/-- Well-formedness. CMD_RSVD has a command word other than the four named ones, which are the words 0 to 3
(R85); a bus-error access names no register (R81); a reserved port header has PORT ≥ 2 or a nonzero low byte
(R89). Every other operation is well formed with any operands. -/
def Instr.wf : Instr → Bool
  | .rdCmd => true
  | .rdStatus => true
  | .rdNominal => true
  | .rdStep => true
  | .rdTrig => true
  | .rdCount => true
  | .rdLevel => true
  | .rdCapacity => true
  | .cmdNop => true
  | .cmdEnable => true
  | .cmdDisable => true
  | .cmdService => true
  | .cmdRsvd d => decide (4 ≤ d.toNat)
  | .wrStatus _ => true
  | .wrNominal _ => true
  | .wrStep _ => true
  | .wrTrig _ => true
  | .wrCount _ => true
  | .wrLevel _ => true
  | .wrCapacity _ => true
  | .busErrRd size off => !registerAccess size off
  | .busErrWr size off _ => !registerAccess size off
  | .epDone _ => true
  | .dmaWr _ _ => true
  | .rsvdPort port low => decide (2 ≤ port.toNat) || low != 0
  | .rsvdClass _ => true

end Sys2Proof
end

