-- ==== Sys2Proof/Decode.lean ====
section
/-! DEFINITION. Decoding a transaction (R80 to R91), the encoder, the numbering of spec/opcode_table.json, host bus
addresses (R60) and the spelling and text of the syntax of R92 and R93. A transaction is a list of bytes, most
significant byte first (R80: "A transaction is H then its payload, most significant bit first"). -/

namespace Sys2Proof

/-- Why a byte list is no transaction. -/
inductive DecodeError where
  /-- Fewer than the 16 bits of a header. -/
  | shortHeader
  /-- Fewer bits of payload than the header fixes (R80). -/
  | shortPayload
deriving DecidableEq, Repr

/-! ### Bits and bytes -/

/-- Sixteen bits, most significant byte first. -/
def halfBytes (h : Half) : List Byte :=
  [h.extractLsb' 8 8, h.extractLsb' 0 8]

/-- Thirty-two bits, most significant byte first. -/
def wordBytes (w : Word) : List Byte :=
  [w.extractLsb' 24 8, w.extractLsb' 16 8, w.extractLsb' 8 8, w.extractLsb' 0 8]

/-- The half of two bytes, the first the more significant. -/
def halfOf (b1 b0 : Byte) : Half := b1 ++ b0

/-- The word of four bytes, the first the most significant. -/
def wordOf (b3 b2 b1 b0 : Byte) : Word := b3 ++ b2 ++ b1 ++ b0

/-! ### Header fields (R80 to R82) -/

/-- `H[15:14]`. -/
def headerClass (h : Half) : HeaderClass :=
  let c := h.extractLsb' 14 2
  if c = 0b00#2 then .hostRd else if c = 0b01#2 then .hostWr else if c = 0b10#2 then .port else .reserved

/-- The bits of a SIZE field (R81). -/
def Size.code : Size → BitVec 2
  | .byte => 0b00#2
  | .half => 0b01#2
  | .word => 0b10#2
  | .reserved => 0b11#2

/-- The SIZE a two-bit field stands for (R81). -/
def Size.ofCode (c : BitVec 2) : Size :=
  if c = 0b00#2 then .byte else if c = 0b01#2 then .half else if c = 0b10#2 then .word else .reserved

/-- `H[13:12]` of a host header. -/
def headerSize (h : Half) : Size := Size.ofCode (h.extractLsb' 12 2)

/-- `H[11:0]` of a host header. -/
def headerOffset (h : Half) : Offset := h.extractLsb' 0 12

/-- `H[13:8]` of a port header. -/
def headerPort (h : Half) : BitVec 6 := h.extractLsb' 8 6

/-- `H[7:0]` of a port header. -/
def headerLow (h : Half) : Byte := h.extractLsb' 0 8

/-- A host header of the given class bits, size and offset (R81). -/
def hostHeader (cls : BitVec 2) (size : Size) (off : Offset) : Half :=
  cls ++ size.code ++ off

/-! ### Registers (R84) -/

/-- R86's test: the access is a word access to an aligned mapped offset. -/
def namesRegister (size : Size) (off : Offset) : Bool :=
  size == .word && off.extractLsb' 0 2 == 0b00#2 && decide (off.toNat ≤ 0x01C)

/-- The register's offset. -/
def Reg.offset : Reg → Offset
  | .cmd => 0x000#12
  | .status => 0x004#12
  | .nominal => 0x008#12
  | .step => 0x00C#12
  | .trig => 0x010#12
  | .count => 0x014#12
  | .level => 0x018#12
  | .capacity => 0x01C#12

/-- The register a mapped offset names. -/
def Reg.ofOffset (off : Offset) : Reg :=
  if off = 0x000#12 then .cmd
  else if off = 0x004#12 then .status
  else if off = 0x008#12 then .nominal
  else if off = 0x00C#12 then .step
  else if off = 0x010#12 then .trig
  else if off = 0x014#12 then .count
  else if off = 0x018#12 then .level
  else .capacity

/-! ### The decoder (R86) -/

/-- The read of a register. -/
def readOf : Reg → Instr
  | .cmd => .rdCmd
  | .status => .rdStatus
  | .nominal => .rdNominal
  | .step => .rdStep
  | .trig => .rdTrig
  | .count => .rdCount
  | .level => .rdLevel
  | .capacity => .rdCapacity

/-- The command a CMD word spells (R85): a word with `D[31:4] ≠ 0` or `D[3:0] ≥ 4` is CMD_RSVD. -/
def commandOf (d : Word) : Instr :=
  if d.extractLsb' 4 28 ≠ 0 ∨ 4 ≤ (d.extractLsb' 0 4).toNat then .cmdRsvd d
  else if d.extractLsb' 0 4 = 0x0#4 then .cmdNop
  else if d.extractLsb' 0 4 = 0x1#4 then .cmdEnable
  else if d.extractLsb' 0 4 = 0x2#4 then .cmdDisable
  else .cmdService

/-- The write of a register. -/
def writeOf (r : Reg) (d : Word) : Instr :=
  match r with
  | .cmd => commandOf d
  | .status => .wrStatus d
  | .nominal => .wrNominal d
  | .step => .wrStep d
  | .trig => .wrTrig d
  | .count => .wrCount d
  | .level => .wrLevel d
  | .capacity => .wrCapacity d

/-- A HOST_RD header. -/
def decodeRead (size : Size) (off : Offset) : Instr :=
  if namesRegister size off then readOf (Reg.ofOffset off) else .busErrRd size off

/-- A HOST_WR header with its data. -/
def decodeWrite (size : Size) (off : Offset) (d : Word) : Instr :=
  if namesRegister size off then writeOf (Reg.ofOffset off) d else .busErrWr size off d

/-- A PORT header and the bytes after it (R82, R89). -/
def decodePort (h : Half) (rest : List Byte) : Except DecodeError (Instr × List Byte) :=
  if headerLow h ≠ 0 then .ok (.rsvdPort (headerPort h) (headerLow h), rest)
  else if headerPort h = 0x00#6 then
    match rest with
    | e :: more => .ok (.epDone e, more)
    | _ => .error .shortPayload
  else if headerPort h = 0x01#6 then
    match rest with
    | i1 :: i0 :: d3 :: d2 :: d1 :: d0 :: more => .ok (.dmaWr (halfOf i1 i0) (wordOf d3 d2 d1 d0), more)
    | _ => .error .shortPayload
  else .ok (.rsvdPort (headerPort h) (headerLow h), rest)

/-- R86's procedure on a header and the bytes after it. A reserved class guesses no length: it takes the header
alone (R88). -/
def decodeHeader (h : Half) (rest : List Byte) : Except DecodeError (Instr × List Byte) :=
  match headerClass h with
  | .reserved => .ok (.rsvdClass (h.extractLsb' 0 14), rest)
  | .port => decodePort h rest
  | .hostRd => .ok (decodeRead (headerSize h) (headerOffset h), rest)
  | .hostWr =>
    match rest with
    | d3 :: d2 :: d1 :: d0 :: more =>
      .ok (decodeWrite (headerSize h) (headerOffset h) (wordOf d3 d2 d1 d0), more)
    | _ => .error .shortPayload

/-- The first transaction of a byte list and the bytes after it. -/
def decode : List Byte → Except DecodeError (Instr × List Byte)
  | h1 :: h0 :: rest => decodeHeader (halfOf h1 h0) rest
  | _ => .error .shortHeader

/-! ### The encoder (R83: the headers of opcode_table.json) -/

/-- The transaction that spells an operation. -/
def encode : Instr → List Byte
  | .rdCmd => halfBytes 0x2000#16
  | .rdStatus => halfBytes 0x2004#16
  | .rdNominal => halfBytes 0x2008#16
  | .rdStep => halfBytes 0x200C#16
  | .rdTrig => halfBytes 0x2010#16
  | .rdCount => halfBytes 0x2014#16
  | .rdLevel => halfBytes 0x2018#16
  | .rdCapacity => halfBytes 0x201C#16
  | .cmdNop => halfBytes 0x6000#16 ++ wordBytes 0x00000000#32
  | .cmdEnable => halfBytes 0x6000#16 ++ wordBytes 0x00000001#32
  | .cmdDisable => halfBytes 0x6000#16 ++ wordBytes 0x00000002#32
  | .cmdService => halfBytes 0x6000#16 ++ wordBytes 0x00000003#32
  | .cmdRsvd d => halfBytes 0x6000#16 ++ wordBytes d
  | .wrStatus d => halfBytes 0x6004#16 ++ wordBytes d
  | .wrNominal d => halfBytes 0x6008#16 ++ wordBytes d
  | .wrStep d => halfBytes 0x600C#16 ++ wordBytes d
  | .wrTrig d => halfBytes 0x6010#16 ++ wordBytes d
  | .wrCount d => halfBytes 0x6014#16 ++ wordBytes d
  | .wrLevel d => halfBytes 0x6018#16 ++ wordBytes d
  | .wrCapacity d => halfBytes 0x601C#16 ++ wordBytes d
  | .busErrRd size off => halfBytes (hostHeader 0b00#2 size off)
  | .busErrWr size off d => halfBytes (hostHeader 0b01#2 size off) ++ wordBytes d
  | .epDone err => halfBytes 0x8000#16 ++ [err]
  | .dmaWr idx data => halfBytes 0x8100#16 ++ (halfBytes idx ++ wordBytes data)
  | .rsvdPort port low => halfBytes (0b10#2 ++ port ++ low)
  | .rsvdClass rest => halfBytes (0b11#2 ++ rest)

/-! ### The numbering of spec/opcode_table.json -/

/-- The transaction whose bits are `w`, numbered as the table numbers them: bit 0 is the least significant bit of
the header; the payload's fields (R82, R85) count on from bit 16 in the order they are sent, each with its own
least significant bit lowest (log 11, DESIGN CHOICE: the table numbers the header only). Bits from `nbits` up are
zero. The header fixes how many payload bytes are laid out (R80). -/
def tableBytes (nbits w : Nat) : List Byte :=
  let v : BitVec 64 := BitVec.ofNat 64 (w % 2 ^ nbits)
  let h : Half := v.extractLsb' 0 16
  halfBytes h ++
    match headerClass h with
    | .hostRd => []
    | .hostWr => wordBytes (v.extractLsb' 16 32)
    | .reserved => []
    | .port =>
      if h = 0x8000#16 then [v.extractLsb' 16 8]
      else if h = 0x8100#16 then halfBytes (v.extractLsb' 16 16) ++ wordBytes (v.extractLsb' 32 32)
      else []

/-- The instruction the decoder reads from the bits `w` of a row of the table. -/
def decodeTableWord (nbits w : Nat) : Option Instr :=
  match decode (tableBytes nbits w) with
  | .ok (i, _) => some i
  | .error _ => none

/-! ### Host bus addresses (R11, R60) -/

/-- The byte address of an offset of the window: `P_BASE + offset`. -/
def Params.address (p : Params) (off : Offset) : Nat := p.base + off.toNat

/-- The offset a host byte address has in the block's window, if it lies in its 4096 bytes. -/
def Params.offsetOf (p : Params) (addr : Nat) : Option Offset :=
  if p.base ≤ addr ∧ addr < p.base + 4096 then some (BitVec.ofNat 12 (addr - p.base)) else none

/-- The transaction of a host access: a read, or a write with its data (R80, R81). -/
def spellAccess (size : Size) (off : Offset) : Option Word → List Byte
  | none => halfBytes (hostHeader 0b00#2 size off)
  | some d => halfBytes (hostHeader 0b01#2 size off) ++ wordBytes d

/-! ### The textual syntax (R92, R93) -/

/-- The STATUS bit number of an error cause, which is its cause code (R201). -/
def ErrorCause.bit : ErrorCause → Nat
  | .clamp => 8
  | .dmaOor => 9
  | .badcmd => 10
  | .cfgLock => 11
  | .buserr => 12

/-- The SIZE of a letter of a raw form. -/
def RawSize.size : RawSize → Size
  | .b => .byte
  | .h => .half
  | .w => .word

/-- The transaction a line spells (R92; pseudo-operations by their expansion in R93). -/
def Asm.spell : Asm → List Byte
  | .rd r => spellAccess .word r.offset none
  | .wr r imm => spellAccess .word r.offset (some imm)
  | .rdRaw s off => spellAccess s.size off none
  | .wrRaw s off imm => spellAccess s.size off (some imm)
  | .epDone err => halfBytes 0x8000#16 ++ [err]
  | .dmaWr idx data => halfBytes 0x8100#16 ++ (halfBytes idx ++ wordBytes data)
  | .nop => spellAccess .word Reg.cmd.offset (some 0x0#32)
  | .enable => spellAccess .word Reg.cmd.offset (some 0x1#32)
  | .disable => spellAccess .word Reg.cmd.offset (some 0x2#32)
  | .service => spellAccess .word Reg.cmd.offset (some 0x3#32)
  | .clrerr => spellAccess .word Reg.status.offset (some 0x1F00#32)
  | .clr f => spellAccess .word Reg.status.offset (some (1#32 <<< f.bit))

/-- The register's name in the syntax. -/
def Reg.text : Reg → String
  | .cmd => "CMD"
  | .status => "STATUS"
  | .nominal => "NOMINAL"
  | .step => "STEP"
  | .trig => "TRIG"
  | .count => "COUNT"
  | .level => "LEVEL"
  | .capacity => "CAPACITY"

/-- The error cause's name in the syntax (R93: `clr F`). -/
def ErrorCause.text : ErrorCause → String
  | .clamp => "CLAMP"
  | .dmaOor => "DMA_OOR"
  | .badcmd => "BADCMD"
  | .cfgLock => "CFG_LOCK"
  | .buserr => "BUSERR"

/-- The SIZE letter. -/
def RawSize.text : RawSize → String
  | .b => "b"
  | .h => "h"
  | .w => "w"

/-- A line as text, numbers in decimal (R10: "other numbers are decimal"; log 15). -/
def Asm.text : Asm → String
  | .rd r => "rd " ++ r.text
  | .wr r imm => "wr " ++ r.text ++ ", " ++ toString imm.toNat
  | .rdRaw s off => "rd." ++ s.text ++ " " ++ toString off.toNat
  | .wrRaw s off imm => "wr." ++ s.text ++ " " ++ toString off.toNat ++ ", " ++ toString imm.toNat
  | .epDone err => "ep_done " ++ toString err.toNat
  | .dmaWr idx data => "dma_wr " ++ toString idx.toNat ++ ", " ++ toString data.toNat
  | .nop => "nop"
  | .enable => "enable"
  | .disable => "disable"
  | .service => "service"
  | .clrerr => "clrerr"
  | .clr f => "clr " ++ f.text

end Sys2Proof
end

