-- ==== Sys2Proof/Machine/State.lean ====
section
/-! DEFINITION. The state of the machine: the block (10_state R22), its ports (R38, R39), the environment agents
(43_environment R181 to R187), the parameters (R8) and the entries the agents present, as plain data. -/

namespace Sys2Proof.Machine

/-- The sample buffer: (index, word) cells, indices strictly rising, an unwritten word having no cell (R36, R164,
logs 5 and 6). -/
abbrev Memory := List (Nat × Word)

/-- The comparator's verdict (R28, R131). The value 3 of the field is never written, so it has no constructor
(log 14). -/
inductive Band where
  | hold
  | low
  | high
deriving DecidableEq, Repr

/-- The output events of R37. -/
inductive Event where
  | usbWrite (len : Nat) (payload : List Word)
  | dmaArm (len : Nat)
  | fifoClear
  | captureEnable
deriving DecidableEq, Repr

/-- What the environment's history records (R182, R185, R187). -/
inductive EnvRecord where
  | fifoOverflow
  | dmaRejected
  | usbRejected
deriving DecidableEq, Repr

/-- The five sticky bits of STATUS (R26, R27). -/
structure Sticky where
  clamp : Bool
  dmaOor : Bool
  badcmd : Bool
  cfgLock : Bool
  buserr : Bool
deriving DecidableEq, Repr

/-- The block's state: exactly the list of R22. -/
structure Block where
  /-- SR, startRequested (R23). -/
  sr : Bool
  /-- REC, isRecording (R24). -/
  recFlag : Bool
  /-- BAND (R28). -/
  band : Band
  /-- NOMINAL (R29). -/
  nominal : Half
  /-- STEP (R30). -/
  stepReg : Half
  /-- TRIG (R31). -/
  trig : Half
  /-- COUNT (R32). -/
  count : Half
  /-- CLAMP, DMA_OOR, BADCMD, CFG_LOCK, BUSERR (R26). -/
  sticky : Sticky
  /-- The sample buffer (R36). -/
  buf : Memory
  /-- The output log (R37), oldest first. -/
  out : List Event
deriving DecidableEq, Repr

/-- The environment agents' state (R181, R185, R187). -/
structure Env where
  /-- The capture FIFO, oldest first. -/
  fifo : List Word
  /-- The capture peripheral's enable flag. -/
  pdmEn : Bool
  /-- The DMA engine's next buffer index. -/
  dmaIdx : Nat
  /-- The DMA engine's beats left. -/
  dmaRem : Nat
  /-- Accepted USB transfers not yet completed, oldest first. -/
  usbInflight : List (Nat × List Word)
  /-- The environment's history, oldest first. -/
  history : List EnvRecord
deriving DecidableEq, Repr

/-- The free inputs of a step (R12: "a model takes it as a free input of the step"). -/
structure Inputs where
  /-- Who drives the port fifo_level: none, the reference FIFO (R181); some n, the value n (R92: `@level=n`). -/
  level : Option Half
  /-- The draw `accept` of R187. -/
  accept : Bool
  /-- The draw `restart` of R185. -/
  restart : Bool
deriving DecidableEq, Repr

/-- What an agent presents: the steps of R7 ("Each host bus access, each port event and each environment step is
one atomic step of the machine") and the reset input. -/
inductive Stimulus where
  /-- A transaction on the block's host bus or ports, with the inputs of its step. -/
  | txn (inp : Inputs) (bytes : List Byte)
  /-- A host bus access at an absolute byte address (R11, R60): a read, or a write with its data. -/
  | bus (inp : Inputs) (addr : Nat) (size : Size) (data : Option Word)
  /-- PDM_PUSH with its drawn sample (R182). -/
  | pdmPush (sample : Word)
  /-- DMA_BEAT (R186). -/
  | dmaBeat
  /-- EP_DONE delivery by the reference USB agent, with its draws (R188). -/
  | usbDone (accept restart : Bool) (err : Byte)
  /-- The reset input; with true the platform resets the collaborators with the block (R231), with false the
  block alone (R233). -/
  | rst (collaborators : Bool)
deriving DecidableEq, Repr

/-- The agents that take a step only when it is enabled. -/
inductive Agent where
  | pdm
  | dma
  | usb
deriving DecidableEq, Repr

/-- The machine. -/
structure State where
  /-- R8; no step changes it. -/
  params : Params
  /-- R22. -/
  block : Block
  /-- R181 to R187. -/
  env : Env
  /-- The free inputs of the step being taken, or of the last one taken (log 2). -/
  inputs : Inputs
  /-- The host bus read data of the step being taken, or of the last one taken; none where it was no read
  (R39, R100, log 3). -/
  readData : Option Word
  /-- What the agents present, in the total order of R66, the next one first (log 1). -/
  agenda : List Stimulus
deriving DecidableEq, Repr

/-- Why the machine stops with a fault. -/
inductive Fault where
  /-- Raised by the payload read of EP_DONE or CMD_SERVICE: the word at this index has no value (R164, U1).
  Safe, and unreachable from reset. -/
  | unwrittenWord (index : Nat)
  /-- Raised by the payload read of EP_DONE or CMD_SERVICE: no such index exists in the buffer's index space
  (R60, R162). Safe, and unreachable from reset. -/
  | outsideBuffer (index : Nat)
deriving DecidableEq, Repr

/-- Why the machine has no step. -/
inductive Refusal where
  /-- Raised by exec's arm of an operation that has no meaning yet. Safe. -/
  | notModelled (mnemonic : String)
  /-- Raised by RSVD_CLASS: R88, "A model refuses it: the machine has no step for it". Safe. -/
  | reservedClass
  /-- Raised by RSVD_PORT: R89, "A model refuses it as in rule R88". Safe. -/
  | reservedPort
  /-- Raised by step: the presented bytes end before the transaction does (R80, log 7). Safe. -/
  | shortTransaction (why : DecodeError)
  /-- Raised by step: bytes stand after the transaction whose length its header fixes (R80, log 7). Safe. -/
  | trailingBytes
  /-- Raised by step: the presented step of this agent is not enabled (R182, R186, R188, log 9). Safe. -/
  | notEnabled (agent : Agent)
deriving DecidableEq, Repr

/-! ### Reset (R230, R191) -/

/-- No sticky bit set. -/
def Sticky.reset : Sticky where
  clamp := false
  dmaOor := false
  badcmd := false
  cfgLock := false
  buserr := false

/-- The reset value of NOMINAL: `min(P_NOMINAL_RESET, P_CAPACITY)` (R29). -/
def nominalAtReset (p : Params) : Half :=
  if p.nominalReset ≤ p.capacity then p.nominalReset else p.capacity

/-- The block after reset (R230). -/
def Block.reset (p : Params) : Block where
  sr := false
  recFlag := false
  band := .hold
  nominal := nominalAtReset p
  stepReg := p.stepReset
  trig := p.trigReset
  count := nominalAtReset p
  sticky := Sticky.reset
  buf := []
  out := []

/-- The environment after reset (R191). -/
def Env.reset : Env where
  fifo := []
  pdmEn := false
  dmaIdx := 0
  dmaRem := 0
  usbInflight := []
  history := []

/-- The inputs standing in the reset state (log 2, DESIGN CHOICE): the reference FIFO drives the level, and the
draws are opaque. -/
def Inputs.reset : Inputs where
  level := none
  accept := Config.openAccept
  restart := Config.openRestart

/-- A machine with given parameters right after reset, with nothing presented. -/
def State.resetWith (p : Params) : State where
  params := p
  block := Block.reset p
  env := Env.reset
  inputs := Inputs.reset
  readData := none
  agenda := []

/-- The machine right after reset. -/
def State.reset : State := State.resetWith Params.standard

end Sys2Proof.Machine
end

