-- ==== Sys2Proof/Machine/Environment.lean ====
section
/-! DEFINITION. The environment agents of 43_environment: what each does on a request (R183 to R187) and the agents'
own state changes in their steps (R182, R186, R188). -/

namespace Sys2Proof.Machine

/-- Add a record to the environment's history. -/
def Env.record (e : Env) (r : EnvRecord) : Env := { e with history := e.history ++ [r] }

/-- The DMA engine takes a transfer of `len` words from index 0 (R185). -/
def Env.startDma (e : Env) (len : Nat) : Env := { e with dmaIdx := 0, dmaRem := len }

/-- Response to FIFO_CLEAR (R183). -/
def Env.clearFifo (e : Env) : Env := { e with fifo := [] }

/-- Response to CAPTURE_ENABLE (R184). -/
def Env.enableCapture (e : Env) : Env := { e with pdmEn := true }

/-- Response to DMA_ARM (R185): an idle channel accepts; a busy one restarts or refuses by the draw. -/
def Env.armDma (e : Env) (restart : Bool) (len : Nat) : Env :=
  if e.dmaRem = 0 then e.startDma len
  else if restart then e.startDma len
  else e.record .dmaRejected

/-- Response to USB_WRITE (R187): accepted or refused by the draw; a refused write is not retried. -/
def Env.takeUsb (e : Env) (accept : Bool) (len : Nat) (payload : List Word) : Env :=
  if accept then { e with usbInflight := e.usbInflight ++ [(len, payload)] } else e.record .usbRejected

/-- The receiving agent's response to an output event, in the emitting step (R180). -/
def Env.respond (e : Env) (inp : Inputs) : Event → Env
  | .fifoClear => e.clearFifo
  | .captureEnable => e.enableCapture
  | .dmaArm len => e.armDma inp.restart len
  | .usbWrite len payload => e.takeUsb inp.accept len payload

/-- PDM_PUSH (R182): a full FIFO loses the new sample and the overflow is recorded. -/
def Env.push (e : Env) (depth : Nat) (sample : Word) : Env :=
  if e.fifo.length < depth then { e with fifo := e.fifo ++ [sample] } else e.record .fifoOverflow

/-- The DMA engine's own part of a beat (R186): one sample taken, the index up, the beats left down. -/
def Env.beat (e : Env) : Env :=
  { e with fifo := e.fifo.tail, dmaIdx := e.dmaIdx + 1, dmaRem := e.dmaRem - 1 }

/-- The reference USB agent takes the head transfer off (R188). -/
def Env.completeUsb (e : Env) : Env := { e with usbInflight := e.usbInflight.tail }

end Sys2Proof.Machine
end

