-- ==== Sys2Proof/Machine/Flags.lean ====
section
/-! DEFINITION. The status flags: the session phase, the sticky bits, and STATUS assembled from them (10_state R24 to
R28, 40_host_ops R108, R109). -/

namespace Sys2Proof.Machine

/-- The session is Idle: SESSION = {REC, SR} = 0b00 (R24). -/
def Block.idle (b : Block) : Bool := !b.recFlag && !b.sr

/-- SESSION as the two bits {REC, SR} (R24). -/
def Block.session (b : Block) : BitVec 2 := BitVec.ofBool b.recFlag ++ BitVec.ofBool b.sr

/-- The code of a verdict in STATUS[3:2] (R28). -/
def Band.code : Band → BitVec 2
  | .hold => 0#2
  | .low => 1#2
  | .high => 2#2

/-- One sticky bit. -/
def Sticky.get (k : Sticky) : ErrorCause → Bool
  | .clamp => k.clamp
  | .dmaOor => k.dmaOor
  | .badcmd => k.badcmd
  | .cfgLock => k.cfgLock
  | .buserr => k.buserr

/-- Set one sticky bit; the others stay (R27). -/
def Sticky.set (k : Sticky) : ErrorCause → Sticky
  | .clamp => { k with clamp := true }
  | .dmaOor => { k with dmaOor := true }
  | .badcmd => { k with badcmd := true }
  | .cfgLock => { k with cfgLock := true }
  | .buserr => { k with buserr := true }

/-- Write 1 to clear, by the mask D[12:8] in bit order CLAMP (its bit 0) to BUSERR (its bit 4) (R87, R109). -/
def Sticky.clear (k : Sticky) (mask : BitVec 5) : Sticky where
  clamp := k.clamp && !mask.getLsbD 0
  dmaOor := k.dmaOor && !mask.getLsbD 1
  badcmd := k.badcmd && !mask.getLsbD 2
  cfgLock := k.cfgLock && !mask.getLsbD 3
  buserr := k.buserr && !mask.getLsbD 4

/-- STATUS as a read returns it (R108): the concatenation of its pseudocode, reserved bits 0. -/
def Block.statusWord (b : Block) : Word :=
  0#19 ++ BitVec.ofBool b.sticky.buserr ++ BitVec.ofBool b.sticky.cfgLock ++ BitVec.ofBool b.sticky.badcmd ++
    BitVec.ofBool b.sticky.dmaOor ++ BitVec.ofBool b.sticky.clamp ++ 0#4 ++ b.band.code ++
    BitVec.ofBool b.recFlag ++ BitVec.ofBool b.sr

end Sys2Proof.Machine
end

