-- ==== Sys2Proof/Machine/Operands.lean ====
section
/-! DEFINITION. Operand assembly (30_encoding R87): every operand is a field of the transaction, zero-extended. -/

namespace Sys2Proof.Machine

/-- The value written to NOMINAL, STEP or TRIG: `D[15:0]`; `D[31:16]` is ignored. -/
def valueOf (d : Word) : Half := d.extractLsb' 0 16

/-- The sticky-clear mask of a STATUS write: `D[12:8]`. -/
def clearMaskOf (d : Word) : BitVec 5 := d.extractLsb' 8 5

/-- The DMA index: `zext(I[15:0])`, an unsigned integer. -/
def indexOf (idx : Half) : Nat := idx.toNat

/-- A 16-bit register as a 32-bit read value: `zext_32`. -/
def zext32 (h : Half) : Word := h.zeroExtend 32

/-- The input port fifo_level at this step (R33, R38): the value the step's inputs give it, else the number of
samples in the reference FIFO (R181), which its depth keeps within 16 bits. -/
def State.fifoLevel (s : State) : Half :=
  match s.inputs.level with
  | some n => n
  | none => BitVec.ofNat 16 s.env.fifo.length

end Sys2Proof.Machine
end

