-- ==== Sys2Proof/Machine/Ops.lean ====
section
/-! DEFINITION. The named operations over the sample buffer, the registers, the sticky bits and the output log. -/

namespace Sys2Proof.Machine

/-! ### The sample buffer (R36, R60, R160 to R164) -/

/-- What an unlisted index reads as: no value (R164, R230: "a model gives the words no value"; log 5). -/
def Memory.unlisted : Option Word := none

/-- The canonical form: indices strictly rising. No cell can equal an unlisted word, which has no value. -/
abbrev Memory.wf (m : Memory) : Prop := m.Pairwise (fun a b => a.1 < b.1)

/-- One word. -/
def Memory.read : Memory → Nat → Option Word
  | [], _ => Memory.unlisted
  | (j, v) :: more, i => if i = j then some v else Memory.read more i

/-- Write one word, keeping the indices rising. -/
def Memory.write : Memory → Nat → Word → Memory
  | [], i, w => [(i, w)]
  | (j, v) :: more, i, w =>
    if i < j then (i, w) :: (j, v) :: more
    else if i = j then (i, w) :: more
    else (j, v) :: Memory.write more i w

/-- The buffer with every word of indices 0 to `cap - 1` zero (R161). -/
def Memory.zeros (cap : Nat) : Memory := (List.range cap).map (fun i => (i, 0#32))

/-- The capacity as a number. -/
def State.capacity (s : State) : Nat := s.params.capacity.toNat

/-- Read `buf[i]` for a payload. -/
def State.readWord (s : State) (i : Nat) : Except Fault Word :=
  if i < s.capacity then
    match s.block.buf.read i with
    | some w => .ok w
    | none => .error (.unwrittenWord i)
  else .error (.outsideBuffer i)

/-- The payload `[buf[0], ..., buf[n-1]]`, a copy in index order (R162). -/
def State.payload (s : State) : Nat → Except Fault (List Word)
  | 0 => .ok []
  | n + 1 =>
    match s.payload n with
    | .error f => .error f
    | .ok ws =>
      match s.readWord n with
      | .error f => .error f
      | .ok w => .ok (ws ++ [w])

/-! ### Registers, ports and flags -/

/-- Replace the block's state. -/
def State.setBlock (s : State) (b : Block) : State := { s with block := b }

/-- Replace the environment's state. -/
def State.setEnv (s : State) (e : Env) : State := { s with env := e }

/-- Answer a host read (R100). -/
def State.answer (s : State) (w : Word) : State := { s with readData := some w }

/-- `raise Error(c)`: set one sticky bit (R11, R27, R200). The block has no exception (R206), so this is the one
operation every error condition goes through: no register is saved, no mode changes, nothing is suppressed. -/
def State.raise (s : State) (c : ErrorCause) : State :=
  s.setBlock { s.block with sticky := s.block.sticky.set c }

/-- `emit E`: append to the output log, and the receiving agent responds in the same step (R37, R180). -/
def State.emit (s : State) (ev : Event) : State :=
  { s with
    block := { s.block with out := s.block.out ++ [ev] }
    env := s.env.respond s.inputs ev }

/-- Issue the outbound transfer of the current COUNT words: USB_WRITE(n, [buf[0], ..., buf[n-1]]) (R106 (d),
R130 (1), R162). -/
def State.issueUsbWrite (s : State) : Except Fault State :=
  match s.payload s.block.count.toNat with
  | .error f => .error f
  | .ok ws => .ok (s.emit (.usbWrite s.block.count.toNat ws))

/-- The configuration lock (R41): an accepted write changes the block as given; a write outside Idle changes no
register and raises CFG_LOCK. -/
def State.configure (s : State) (accepted : Block) : State :=
  if s.block.idle then s.setBlock accepted else s.raise .cfgLock

/-- DMA_WR on the block (R160): a beat in range writes one word; another is dropped and raises DMA_OOR. -/
def State.dmaWrite (s : State) (i : Nat) (data : Word) : State :=
  if i < s.capacity then s.setBlock { s.block with buf := s.block.buf.write i data } else s.raise .dmaOor

/-- Zero-fill every word of the buffer (R161). -/
def State.zeroFill (s : State) : State :=
  s.setBlock { s.block with buf := Memory.zeros s.capacity }

/-- The outcome of a meaning that may fault. -/
def outcomeOf : Except Fault State → Host.Outcome State Fault Refusal
  | .ok s => .next s
  | .error f => .fault f

/-! ### Taking an entry -/

/-- Begin the step of the next entry: it leaves the agenda and the read-data port is idle (log 3). -/
def State.beginEntry (s : State) (more : List Stimulus) : State :=
  { s with agenda := more, readData := none }

/-- Present a step's free inputs (R12, log 2). -/
def State.present (s : State) (inp : Inputs) : State := { s with inputs := inp }

/-- The reset input (R230 to R233): the block takes its reset state, and with it the collaborators where the platform
resets them. The parameters and what is still to be presented stay (log 10). -/
def State.applyReset (s : State) (collaborators : Bool) : State :=
  { s with
    block := Block.reset s.params
    env := if collaborators then Env.reset else s.env }

end Sys2Proof.Machine
end

