-- ==== Sys2Proof/Machine/Commands.lean ====
section
/-! DEFINITION. The command writes (40_host_ops R103 to R107). -/

namespace Sys2Proof.Machine

/-- CMD_NOP (R103). -/
def execCmdNop (s : State) : Host.Outcome State Fault Refusal := .next s

/-- CMD_ENABLE (R104). In the unreachable phase 0b11 the rules' pseudocode is followed as written (log 8). -/
def execCmdEnable (s : State) : Host.Outcome State Fault Refusal :=
  .next (if s.block.recFlag then s else s.setBlock { s.block with sr := true })

/-- CMD_DISABLE (R105): COUNT returns to NOMINAL only where a recording is stopped (90_conflicts C4). -/
def execCmdDisable (s : State) : Host.Outcome State Fault Refusal :=
  let count := if s.block.recFlag then s.block.nominal else s.block.count
  .next (s.setBlock { s.block with count := count, sr := false, recFlag := false })

/-- The start sequence up to the first outbound transfer: SR cleared, then (a), (b), (c) of R106. -/
def State.prepareSession (s : State) : State :=
  ((s.setBlock { s.block with sr := false }).zeroFill.emit .fifoClear).emit .captureEnable

/-- Starting → Recording. -/
def State.beginRecording (s : State) : State := s.setBlock { s.block with recFlag := true }

/-- The start sequence of R106, (a) to (d) and the promotion. -/
def State.startSession (s : State) : Except Fault State :=
  match s.prepareSession.issueUsbWrite with
  | .error f => .error f
  | .ok s' => .ok s'.beginRecording

/-- CMD_SERVICE (R106): the start sequence where a start request is pending, else nothing. -/
def execCmdService (s : State) : Host.Outcome State Fault Refusal :=
  if s.block.sr then outcomeOf s.startSession else .next s

/-- CMD_RSVD (R107). -/
def execCmdRsvd (_d : Word) (s : State) : Host.Outcome State Fault Refusal := .next (s.raise .badcmd)

end Sys2Proof.Machine
end

