-- ==== Sys2Proof/Machine/HostRead.lean ====
section
/-! DEFINITION. The HOST_RD family: the eight register reads and the bus-error read (40_host_ops). -/

namespace Sys2Proof.Machine

/-- RD_CMD (R102). -/
def execRdCmd (s : State) : Host.Outcome State Fault Refusal := .next (s.answer 0#32)

/-- RD_STATUS (R108). -/
def execRdStatus (s : State) : Host.Outcome State Fault Refusal := .next (s.answer s.block.statusWord)

/-- RD_NOMINAL (R113). -/
def execRdNominal (s : State) : Host.Outcome State Fault Refusal := .next (s.answer (zext32 s.block.nominal))

/-- RD_STEP (R114). -/
def execRdStep (s : State) : Host.Outcome State Fault Refusal := .next (s.answer (zext32 s.block.stepReg))

/-- RD_TRIG (R115). -/
def execRdTrig (s : State) : Host.Outcome State Fault Refusal := .next (s.answer (zext32 s.block.trig))

/-- RD_COUNT (R116). -/
def execRdCount (s : State) : Host.Outcome State Fault Refusal := .next (s.answer (zext32 s.block.count))

/-- RD_LEVEL (R118): the port as sampled at this step. -/
def execRdLevel (s : State) : Host.Outcome State Fault Refusal := .next (s.answer (zext32 s.fifoLevel))

/-- RD_CAPACITY (R120). -/
def execRdCapacity (s : State) : Host.Outcome State Fault Refusal := .next (s.answer (zext32 s.params.capacity))

/-- BUS_ERR_RD (R122): BUSERR, and the read returns 0. The size and the offset are not recorded (R201). -/
def execBusErrRd (_size : Size) (_off : Offset) (s : State) : Host.Outcome State Fault Refusal :=
  .next ((s.raise .buserr).answer 0#32)

end Sys2Proof.Machine
end

