-- ==== Sys2Proof/Machine/HostWrite.lean ====
section
/-! DEFINITION. The register writes other than CMD, and the bus-error write (40_host_ops R109 to R112, R117, R119, R121,
R123). -/

namespace Sys2Proof.Machine

/-- WR_STATUS (R109): write 1 to clear. -/
def execWrStatus (d : Word) (s : State) : Host.Outcome State Fault Refusal :=
  .next (s.setBlock { s.block with sticky := s.block.sticky.clear (clearMaskOf d) })

/-- The legal NOMINAL nearest a written value: `min(v, P_CAPACITY)` (R29, R110). -/
def State.legalNominal (s : State) (v : Half) : Half :=
  if v ≤ s.params.capacity then v else s.params.capacity

/-- WR_NOMINAL (R110). -/
def execWrNominal (d : Word) (s : State) : Host.Outcome State Fault Refusal :=
  let v := s.legalNominal (valueOf d)
  .next (s.configure { s.block with nominal := v, count := v })

/-- WR_STEP (R111). -/
def execWrStep (d : Word) (s : State) : Host.Outcome State Fault Refusal :=
  .next (s.configure { s.block with stepReg := valueOf d, count := s.block.nominal })

/-- WR_TRIG (R112). -/
def execWrTrig (d : Word) (s : State) : Host.Outcome State Fault Refusal :=
  .next (s.configure { s.block with trig := valueOf d })

/-- WR_COUNT (R117): ignored. -/
def execWrCount (_d : Word) (s : State) : Host.Outcome State Fault Refusal := .next s

/-- WR_LEVEL (R119): ignored; it does not reach the FIFO. -/
def execWrLevel (_d : Word) (s : State) : Host.Outcome State Fault Refusal := .next s

/-- WR_CAPACITY (R121): ignored. -/
def execWrCapacity (_d : Word) (s : State) : Host.Outcome State Fault Refusal := .next s

/-- BUS_ERR_WR (R123): BUSERR, and no register changes. -/
def execBusErrWr (_size : Size) (_off : Offset) (_d : Word) (s : State) : Host.Outcome State Fault Refusal :=
  .next (s.raise .buserr)

end Sys2Proof.Machine
end

