-- ==== Sys2Proof/Machine/Controller.lean ====
section
/-! DEFINITION. The occupancy sensor and the frame-size controller: the parts of EP_DONE (41_controller R131 to R136,
R138). -/

namespace Sys2Proof.Machine

/-- The comparator (R131): HIGH is tested first; both comparisons are strict. -/
def compareBand (occ nominal trig : Nat) : Band :=
  if trig < occ then .high else if occ < nominal then .low else .hold

/-- The adjuster (R132): the step applied to the nominal size, on integers. -/
def adjust (band : Band) (nominal step : Nat) : Int :=
  match band with
  | .high => (nominal : Int) + step
  | .low => (nominal : Int) - step
  | .hold => nominal

/-- Whether a candidate is out of range (R133). -/
def clampNeeded (capacity : Nat) (cand : Int) : Bool :=
  decide (cand < 0) || decide ((capacity : Int) < cand)

/-- The clamp's result (R133): an out-of-range candidate is replaced by the nominal size. -/
def clampCount (capacity : Nat) (cand : Int) (nominal : Half) : Half :=
  if clampNeeded capacity cand then nominal else BitVec.ofNat 16 cand.toNat

/-- One reading of the occupancy (R134). -/
def State.sampleOccupancy (s : State) : Nat := s.fifoLevel.toNat

/-- The verdict on the level at this step (R130 step 3). -/
def State.verdict (s : State) : Band :=
  compareBand s.sampleOccupancy s.block.nominal.toNat s.block.trig.toNat

/-- The candidate count (R130 step 4). -/
def State.candidate (s : State) : Int :=
  adjust s.verdict s.block.nominal.toNat s.block.stepReg.toNat

/-- Steps 2 to 5 of R130: sample, compare, adjust, clamp; COUNT and BAND are written, and CLAMP raised where the
clamp acted. -/
def State.recount (s : State) : State :=
  let s' := s.setBlock
    { s.block with count := clampCount s.capacity s.candidate s.block.nominal, band := s.verdict }
  if clampNeeded s.capacity s.candidate then s'.raise .clamp else s'

/-- Step 6 of R130 (R136): DMA is re-armed while recording, and while not recording if P_IDLE_REARM. -/
def State.rearm (s : State) : State :=
  if s.block.recFlag || s.params.idleRearm then s.emit (.dmaArm s.block.count.toNat) else s

end Sys2Proof.Machine
end

