-- ==== Sys2Proof/Machine/Ports.lean ====
section
/-! DEFINITION. The port events and the reserved verdicts (41_controller R130, 42_buffer_dma R160, 30_encoding R88,
R89). -/

namespace Sys2Proof.Machine

/-- Step 1 of R130: while recording, the USB write of the count as it stands. -/
def State.pumpUsb (s : State) : Except Fault State :=
  if s.block.recFlag then s.issueUsbWrite else .ok s

/-- The completion operation (R130): the USB write, the recount, the re-arm. -/
def State.pump (s : State) : Except Fault State :=
  match s.pumpUsb with
  | .error f => .error f
  | .ok s' => .ok s'.recount.rearm

/-- EP_DONE (R130). The error code is not read (R137). -/
def execEpDone (_err : Byte) (s : State) : Host.Outcome State Fault Refusal := outcomeOf s.pump

/-- DMA_WR (R160). -/
def execDmaWr (idx : Half) (data : Word) (s : State) : Host.Outcome State Fault Refusal :=
  .next (s.dmaWrite (indexOf idx) data)

/-- RSVD_PORT (R89): refused. -/
def execRsvdPort (_port : BitVec 6) (_low : Byte) (_s : State) : Host.Outcome State Fault Refusal :=
  .refused .reservedPort

/-- RSVD_CLASS (R88): refused. -/
def execRsvdClass (_rest : BitVec 14) (_s : State) : Host.Outcome State Fault Refusal := .refused .reservedClass

end Sys2Proof.Machine
end

