-- ==== Sys2Proof/Machine/Dispatch.lean ====
section
/-! DEFINITION. One arm per operation. -/

namespace Sys2Proof.Machine

def exec (i : Instr) (s : State) : Host.Outcome State Fault Refusal :=
  match i with
  | .rdCmd => Sys2Proof.Machine.execRdCmd s
  | .rdStatus => Sys2Proof.Machine.execRdStatus s
  | .rdNominal => Sys2Proof.Machine.execRdNominal s
  | .rdStep => Sys2Proof.Machine.execRdStep s
  | .rdTrig => Sys2Proof.Machine.execRdTrig s
  | .rdCount => Sys2Proof.Machine.execRdCount s
  | .rdLevel => Sys2Proof.Machine.execRdLevel s
  | .rdCapacity => Sys2Proof.Machine.execRdCapacity s
  | .cmdNop => Sys2Proof.Machine.execCmdNop s
  | .cmdEnable => Sys2Proof.Machine.execCmdEnable s
  | .cmdDisable => Sys2Proof.Machine.execCmdDisable s
  | .cmdService => Sys2Proof.Machine.execCmdService s
  | .cmdRsvd d => Sys2Proof.Machine.execCmdRsvd d s
  | .wrStatus d => Sys2Proof.Machine.execWrStatus d s
  | .wrNominal d => Sys2Proof.Machine.execWrNominal d s
  | .wrStep d => Sys2Proof.Machine.execWrStep d s
  | .wrTrig d => Sys2Proof.Machine.execWrTrig d s
  | .wrCount d => Sys2Proof.Machine.execWrCount d s
  | .wrLevel d => Sys2Proof.Machine.execWrLevel d s
  | .wrCapacity d => Sys2Proof.Machine.execWrCapacity d s
  | .busErrRd size off => Sys2Proof.Machine.execBusErrRd size off s
  | .busErrWr size off d => Sys2Proof.Machine.execBusErrWr size off d s
  | .epDone err => Sys2Proof.Machine.execEpDone err s
  | .dmaWr idx data => Sys2Proof.Machine.execDmaWr idx data s
  | .rsvdPort port low => Sys2Proof.Machine.execRsvdPort port low s
  | .rsvdClass rest => Sys2Proof.Machine.execRsvdClass rest s

end Sys2Proof.Machine
end

