-- ==== Sys2Proof/Machine/Agenda.lean ====
section
/-! DEFINITION. What each entry of the agenda does: transactions decoded and run, host bus accesses by address, and the
environment's own steps (43_environment). -/

namespace Sys2Proof.Machine

/-- Run the one transaction a byte list spells. Bytes that end early, or that go on after it, are no transaction
(R80, log 7). -/
def State.runTransaction (s : State) (bytes : List Byte) : Host.Outcome State Fault Refusal :=
  match decode bytes with
  | .error why => .refused (.shortTransaction why)
  | .ok (i, []) => exec i s
  | .ok (_, _ :: _) => .refused .trailingBytes

/-- A host bus access at an absolute address (R60): inside the window it is the transaction of its offset; elsewhere
the block is not addressed and nothing happens (log 12). -/
def State.runBusAccess (s : State) (addr : Nat) (size : Size) (data : Option Word) :
    Host.Outcome State Fault Refusal :=
  match s.params.offsetOf addr with
  | some off => s.runTransaction (spellAccess size off data)
  | none => .next s

/-- PDM_PUSH (R182), enabled when `pdm_en`. -/
def State.pdmStep (s : State) (sample : Word) : Host.Outcome State Fault Refusal :=
  if s.env.pdmEn then .next (s.setEnv (s.env.push s.params.fifoDepth.toNat sample))
  else .refused (.notEnabled .pdm)

/-- DMA_BEAT (R186), enabled when beats are left and the FIFO holds a sample: the sample leaves the FIFO and the block
performs DMA_WR(dma_idx, s) in the same step. The index is the engine's integer, compared whole
(log 13). -/
def State.dmaStep (s : State) : Host.Outcome State Fault Refusal :=
  match s.env.fifo with
  | [] => .refused (.notEnabled .dma)
  | w :: _ =>
    if s.env.dmaRem = 0 then .refused (.notEnabled .dma)
    else .next ((s.setEnv s.env.beat).dmaWrite s.env.dmaIdx w)

/-- EP_DONE delivery under ENV_REF (R188), enabled when a transfer is in flight: the head is removed and the
completion presented, the reference FIFO driving the level. -/
def State.usbStep (s : State) (accept restart : Bool) (err : Byte) : Host.Outcome State Fault Refusal :=
  match s.env.usbInflight with
  | [] => .refused (.notEnabled .usb)
  | _ :: _ =>
    exec (.epDone err)
      ((s.present (Inputs.mk none accept restart)).setEnv s.env.completeUsb)

/-- Take one entry. -/
def State.runEntry (s : State) : Stimulus → Host.Outcome State Fault Refusal
  | .txn inp bytes => (s.present inp).runTransaction bytes
  | .bus inp addr size data => (s.present inp).runBusAccess addr size data
  | .pdmPush sample => s.pdmStep sample
  | .dmaBeat => s.dmaStep
  | .usbDone accept restart err => s.usbStep accept restart err
  | .rst collaborators => .next (s.applyReset collaborators)

/-- One atomic step: take the next entry of the agenda, or, with nothing presented, wait (R230: "after reset it waits
for operations"; I6; log 1). -/
def State.runNext (s : State) : Host.Outcome State Fault Refusal :=
  match s.agenda with
  | [] => .next s
  | e :: more => (s.beginEntry more).runEntry e

/-- A line of the textual syntax as an entry, its `@level=N` annotation and draws in the inputs (R92). -/
def asmEntry (a : Asm) (inp : Inputs) : Stimulus := .txn inp a.spell

end Sys2Proof.Machine
end

