-- ==== Sys2Proof/Machine/Step.lean ====
section
/-! DEFINITION. One step of the machine, and the placing of one transaction where the next step takes it from. -/

namespace Sys2Proof.Machine

/-- One atomic step (R63, R66). -/
def step (s : State) : Host.Outcome State Fault Refusal := s.runNext

/-- The transaction of bits `w`, numbered as spec/opcode_table.json numbers them, presented next, with the inputs
that stand (log 1). -/
def State.withFetchWord (s : State) (nbits w : Nat) : State :=
  { s with agenda := .txn s.inputs (tableBytes nbits w) :: s.agenda }

end Sys2Proof.Machine
end

