-- ==== Sys2Proof/Safety.lean ====
section
/-! DEFINITION. What claims about runs are stated in: the invariant, a run that stops in no fault, and the reference
environment ENV_REF as a premise (43_environment R188). -/

namespace Sys2Proof.Machine

/-- An output event within the buffer's bounds: a length of at most P_CAPACITY, and for a USB_WRITE a payload of
exactly that length (R37, R42, R162). -/
def Event.bounded (capacity : Nat) : Event → Prop
  | .usbWrite len payload => len ≤ capacity ∧ payload.length = len
  | .dmaArm len => len ≤ capacity
  | .fifoClear => True
  | .captureEnable => True

/-- COUNT is NOMINAL, NOMINAL + STEP or NOMINAL - STEP, computed on integers (R42). -/
def Block.countNearNominal (b : Block) : Prop :=
  b.count.toNat = b.nominal.toNat ∨ b.count.toNat = b.nominal.toNat + b.stepReg.toNat ∨
    b.count.toNat + b.stepReg.toNat = b.nominal.toNat

/-- The byte list is exactly one transaction, which spells this operation (R80, R86). -/
def Spells (bytes : List Byte) (i : Instr) : Prop := decode bytes = .ok (i, [])

/-- Operations one after another with nothing between, stopping at the first that does not answer a next state. -/
def runOps : List Instr → State → Host.Outcome State Fault Refusal
  | [], s => .next s
  | i :: more, s =>
    match exec i s with
    | .next t => runOps more t
    | .fault f => .fault f
    | .refused r => .refused r

/-- The words `ws` are what the buffer holds at indices 0 to `n - 1`, all of them inside it and written (R162). -/
def State.Holds (s : State) (n : Nat) (ws : List Word) : Prop :=
  ws.length = n ∧ ∀ i, i < n → i < s.capacity ∧ s.block.buf.read i = ws[i]?

/-- The three-way comparator, the adjuster and the clamp, as R131 to R133 state them, between the block before and the
block after a completion with occupancy `occ`: BAND, COUNT and CLAMP. -/
structure Recounted (capacity occ : Nat) (b b' : Block) : Prop where
  /-- R131: above the watermark. -/
  high : b.trig.toNat < occ → b'.band = .high
  /-- R131: not above it, and below the nominal frame size. -/
  low : occ ≤ b.trig.toNat → occ < b.nominal.toNat → b'.band = .low
  /-- R131: within the band. -/
  hold : occ ≤ b.trig.toNat → b.nominal.toNat ≤ occ → b'.band = .hold
  /-- R132, R133: a candidate in range is stored, and no sticky bit changes. -/
  kept : ∀ cand : Int,
    cand = (match b'.band with
      | .high => (b.nominal.toNat : Int) + b.stepReg.toNat
      | .low => (b.nominal.toNat : Int) - b.stepReg.toNat
      | .hold => b.nominal.toNat) →
    0 ≤ cand → cand ≤ capacity → (b'.count.toNat : Int) = cand ∧ b'.sticky = b.sticky
  /-- R133: a candidate out of range is replaced by NOMINAL, and CLAMP is set. -/
  replaced : ∀ cand : Int,
    cand = (match b'.band with
      | .high => (b.nominal.toNat : Int) + b.stepReg.toNat
      | .low => (b.nominal.toNat : Int) - b.stepReg.toNat
      | .hold => b.nominal.toNat) →
    cand < 0 ∨ (capacity : Int) < cand → b'.count = b.nominal ∧ b'.sticky = { b.sticky with clamp := true }

/-- The operation a byte list spells, where it is exactly one transaction (R80, R86). -/
def operationOf (bytes : List Byte) : Option Instr :=
  match decode bytes with
  | .ok (i, []) => some i
  | .ok (_, _ :: _) => none
  | .error _ => none

/-- The host operation or port event an entry presents to the block, where it presents one. The beat of the DMA engine
writes the buffer at the engine's own index (R186), and is none of these. -/
def Stimulus.operation (p : Params) : Stimulus → Option Instr
  | .txn _ bytes => operationOf bytes
  | .bus _ addr size data =>
    match p.offsetOf addr with
    | some off => operationOf (spellAccess size off data)
    | none => none
  | .pdmPush _ => none
  | .dmaBeat => none
  | .usbDone _ _ err => some (.epDone err)
  | .rst _ => none

/-- The entry ends no cycle (R14: "the span between two EP_DONE events") and stops no recording: it is no EP_DONE, no
DISABLE and no reset. -/
def Stimulus.staysInCycle (p : Params) (e : Stimulus) : Prop :=
  (∀ err, e.operation p ≠ some (.epDone err)) ∧ e.operation p ≠ some .cmdDisable ∧ ∀ c, e ≠ .rst c

/-- The invariant of the machine: what the spec says holds at every step. -/
structure State.Inv (s : State) : Prop where
  /-- R8: the parameters are in their legal ranges. -/
  params_legal : s.params.legal = true
  /-- R25: SR and REC are never both 1. -/
  not_both : ¬(s.block.sr = true ∧ s.block.recFlag = true)
  /-- R29. -/
  nominal_le : s.block.nominal.toNat ≤ s.capacity
  /-- R42. -/
  count_le : s.block.count.toNat ≤ s.capacity
  /-- R42. -/
  count_near : s.block.countNearNominal
  /-- The buffer keeps its canonical form. -/
  buf_wf : s.block.buf.wf
  /-- R36: the buffer has the indices 0 to P_CAPACITY - 1 only. -/
  buf_inside : ∀ cell ∈ s.block.buf, cell.1 < s.capacity
  /-- R164: while recording, every word of the buffer has been written. -/
  recording_written : s.block.recFlag = true → ∀ i, i < s.capacity → (s.block.buf.read i).isSome = true
  /-- R37, R42, R162. -/
  out_bounded : ∀ ev ∈ s.block.out, ev.bounded s.capacity
  /-- R181: the capture FIFO holds at most P_FIFO_DEPTH samples. -/
  fifo_le : s.env.fifo.length ≤ s.params.fifoDepth.toNat
  /-- R185, R186: what is left of a DMA transfer lies inside the buffer. -/
  dma_inside : s.env.dmaIdx + s.env.dmaRem ≤ s.capacity
  /-- R187: an accepted transfer is one the block emitted. -/
  inflight_bounded : ∀ t ∈ s.env.usbInflight, t.1 ≤ s.capacity ∧ t.2.length = t.1

/-- `k` steps, stopping at the first that does not answer a next state: the host's `core.run` on this machine
(Laws/Run.lean, core_run_eq_runSteps). -/
def runSteps : Nat → State → Host.Outcome State Fault Refusal
  | 0, s => .next s
  | k + 1, s =>
    match step s with
    | .next t => runSteps k t
    | .fault f => .fault f
    | .refused r => .refused r

/-- The machine does not stop with a fault within `k` steps. -/
def State.faultFree (s : State) (k : Nat) : Prop :=
  ∀ f, runSteps k s ≠ .fault f

/-- A transaction of a host class (R80): `H[15]` is 0. -/
def hostClassBytes : List Byte → Bool
  | h1 :: _ => !h1.getLsbD 7
  | [] => true

/-- An entry the reference environment ENV_REF may present: host accesses with the reference FIFO driving the level,
the agents' own steps, and a reset of the block with the collaborators (R181, R185 to R188, R231). -/
def Stimulus.isReference : Stimulus → Bool
  | .txn inp bytes => inp.level.isNone && hostClassBytes bytes
  | .bus inp _ _ _ => inp.level.isNone
  | .pdmPush _ => true
  | .dmaBeat => true
  | .usbDone _ _ _ => true
  | .rst collaborators => collaborators

/-- The named premise ENV_REF (R188): everything presented comes from the reference environment. -/
def State.underReference (s : State) : Prop := ∀ e ∈ s.agenda, e.isReference = true

end Sys2Proof.Machine
end

