-- ==== Sys2Proof/Certificates/Slice0/Obligations.lean ====
section
/-! DEFINITION. The statements for the provers. Each docstring says which rule of spec/ it formalises, or that it is
the model's own. -/

open Sys2Proof Sys2Proof.Machine

/-! ## Encoding (30_encoding) -/

/-- R80 to R83, R86: decoding the transaction of a well-formed operation gives the operation back, every operand at
every value, whatever follows it. -/
def Obligations.DecodeInvertsEncode : Prop :=
  ∀ (i : Instr) (rest : List Byte), i.wf = true → decode (encode i ++ rest) = .ok (i, rest)

/-- R86 the other way: what the decoder answers is well formed, and the bytes it took are that operation's one
transaction, so that no two transactions spell one operation. -/
def Obligations.DecodedBytesAreTheEncoding : Prop :=
  ∀ (bytes : List Byte) (i : Instr) (rest : List Byte),
    decode bytes = .ok (i, rest) → i.wf = true ∧ bytes = encode i ++ rest

/-- Words written out from R80 to R85 and R93 decode to the operations they stand for. -/
def Obligations.SpecTransactionsDecode : Prop :=
  Spells [0x20, 0x1C] .rdCapacity ∧ Spells [0x20, 0x06] (.busErrRd .word 0x006) ∧
  Spells [0x60, 0x00, 0x00, 0x00, 0x00, 0x03] .cmdService ∧
  Spells [0x60, 0x10, 0x00, 0x00, 0x00, 0x40] (.wrTrig 0x40) ∧
  Spells [0x80, 0x00, 0xFF] (.epDone 0xFF) ∧
  Spells [0x81, 0x00, 0x00, 0x33, 0xDE, 0xAD, 0xBE, 0xEF] (.dmaWr 0x33 0xDEADBEEF) ∧
  Spells [0x82, 0x00] (.rsvdPort 0x02 0x00) ∧ Spells [0xFF, 0xFF] (.rsvdClass 0x3FFF)

/-- R80: the header fixes the length. Two header bytes for a read, six for a write, three for EP_DONE and eight for
DMA_WR. With that many bytes the decoder always answers (R86: "Total on any header and payload"). R88 and R89 give the
reserved headers their verdicts; that such a header is taken alone and the bytes after it are left is the model's
reading (log 7, DEDUCED), R88 saying that a decoder does not guess a length. -/
def Obligations.HeaderFixesTheLength : Prop :=
  ∀ (h : Half) (payload : List Byte),
    (headerClass h = .hostRd → ∃ i, decode (halfBytes h ++ payload) = .ok (i, payload)) ∧
    (headerClass h = .hostWr → ∀ d : Word, ∃ i, decode (halfBytes h ++ (wordBytes d ++ payload)) = .ok (i, payload)) ∧
    (h = 0x8000#16 → ∀ e : Byte, decode (halfBytes h ++ (e :: payload)) = .ok (.epDone e, payload)) ∧
    (h = 0x8100#16 → ∀ (idx : Half) (d : Word),
      decode (halfBytes h ++ (halfBytes idx ++ wordBytes d ++ payload)) = .ok (.dmaWr idx d, payload)) ∧
    (headerClass h = .port → h ≠ 0x8000#16 → h ≠ 0x8100#16 →
      decode (halfBytes h ++ payload) = .ok (.rsvdPort (headerPort h) (headerLow h), payload)) ∧
    (headerClass h = .reserved → ∃ r, decode (halfBytes h ++ payload) = .ok (.rsvdClass r, payload))

/-- R62: the admitted host accesses are the word accesses to an offset that is a multiple of four and at most 0x01C;
each of the eight is its register's read or write, and every other host access is a bus-error access. -/
def Obligations.OnlyMappedWordAccessesNameRegisters : Prop :=
  ∀ (size : Size) (off : Offset) (d : Word),
    (∀ r : Reg, Spells (spellAccess .word r.offset none) (readOf r) ∧
      Spells (spellAccess .word r.offset (some d)) (writeOf r d)) ∧
    ((size = .word ∧ off.toNat % 4 = 0 ∧ off.toNat ≤ 0x01C) ↔ (size = .word ∧ ∃ r : Reg, off = r.offset)) ∧
    (¬(size = .word ∧ off.toNat % 4 = 0 ∧ off.toNat ≤ 0x01C) →
      Spells (spellAccess size off none) (.busErrRd size off) ∧
      Spells (spellAccess size off (some d)) (.busErrWr size off d))

/-- R85: the command words 0 to 3 are the four commands, and a word with a nonzero reserved bit or an opcode from 4 up
is CMD_RSVD. -/
def Obligations.CommandWordsDecode : Prop :=
  ∀ d : Word,
    (d = 0 → Spells (halfBytes 0x6000 ++ wordBytes d) .cmdNop) ∧
    (d = 1 → Spells (halfBytes 0x6000 ++ wordBytes d) .cmdEnable) ∧
    (d = 2 → Spells (halfBytes 0x6000 ++ wordBytes d) .cmdDisable) ∧
    (d = 3 → Spells (halfBytes 0x6000 ++ wordBytes d) .cmdService) ∧
    ((d.extractLsb' 4 28 ≠ 0 ∨ 4 ≤ (d.extractLsb' 0 4).toNat) →
      Spells (halfBytes 0x6000 ++ wordBytes d) (.cmdRsvd d))

/-- R93: the pseudo-operations spell the transactions of its table; `clr F` clears exactly the sticky bit F, and `clrerr`
clears all five and changes nothing else. -/
def Obligations.PseudoOperationsExpand : Prop :=
  Asm.nop.spell = [0x60, 0x00, 0x00, 0x00, 0x00, 0x00] ∧ Asm.enable.spell = [0x60, 0x00, 0x00, 0x00, 0x00, 0x01] ∧
  Asm.disable.spell = [0x60, 0x00, 0x00, 0x00, 0x00, 0x02] ∧ Asm.service.spell = [0x60, 0x00, 0x00, 0x00, 0x00, 0x03] ∧
  Asm.clrerr.spell = [0x60, 0x04, 0x00, 0x00, 0x1F, 0x00] ∧
  (∀ f : ErrorCause, (Asm.clr f).spell = halfBytes 0x6004 ++ wordBytes (BitVec.ofNat 32 (2 ^ f.bit))) ∧
  (∀ s : State, Spells Asm.clrerr.spell (.wrStatus 0x1F00) ∧
    exec (.wrStatus 0x1F00) s = .next { s with block := { s.block with
      sticky := { clamp := false, dmaOor := false, badcmd := false, cfgLock := false, buserr := false } } }) ∧
  (∀ (f : ErrorCause) (s : State), ∃ d t, Spells (Asm.clr f).spell (.wrStatus d) ∧ exec (.wrStatus d) s = .next t ∧
    ∀ c : ErrorCause, t.block.sticky.get c = (s.block.sticky.get c && decide (c ≠ f)))

/-! ## One step -/

/-- A step runs the decoded transaction: with a transaction presented next, whose bytes decode to a well-formed
operation and nothing after it, the step is that operation's effect on the state with the entry taken, its inputs
presented and the read-data port idle (the form of the entries is the model's: logs 1, 2 and 3, DESIGN CHOICE). -/
def Obligations.StepRunsTheDecodedTransaction : Prop :=
  ∀ (s : State) (inp : Inputs) (bytes : List Byte) (more : List Stimulus) (i : Instr),
    s.agenda = .txn inp bytes :: more → decode bytes = .ok (i, []) →
      i.wf = true ∧ step s = exec i { s with agenda := more, readData := none, inputs := inp }

/-- The model's own (logs 1, 3 and 11): a table word placed next is what the next step runs. -/
def Obligations.PlacedTableWordRunsNext : Prop :=
  ∀ (s : State) (nbits w : Nat) (i : Instr), decodeTableWord nbits w = some i →
    step (s.withFetchWord nbits w) = exec i { s with readData := none }

/-- R60, R11: a host access at `P_BASE + offset` is the transaction of that offset, and one outside the 4096 bytes of
the window reaches no register (the model's own: nothing happens, log 12; the entry leaves the agenda and the read-data
port goes idle, logs 1 and 3). -/
def Obligations.BusAccessReachesTheWindow : Prop :=
  ∀ (s : State) (inp : Inputs) (addr : Nat) (size : Size) (data : Option Word) (more : List Stimulus),
    s.agenda = .bus inp addr size data :: more →
    (∀ off : Offset, addr = s.params.base + off.toNat →
      step s = step { s with agenda := .txn inp (spellAccess size off data) :: more }) ∧
    (addr < s.params.base ∨ s.params.base + 4096 ≤ addr →
      step s = .next { s with agenda := more, readData := none, inputs := inp })

/-! ## Host reads (40_host_ops) -/

/-- R102, R113 to R116, R120: each read answers its register zero-extended and changes nothing else; NOMINAL and COUNT
read at most P_CAPACITY in every state of the invariant, and TRIG reads P_TRIG_RESET after reset. -/
def Obligations.ReadsAnswerTheirRegister : Prop :=
  ∀ s : State,
    Spells [0x20, 0x00] .rdCmd ∧ exec .rdCmd s = .next { s with readData := some 0 } ∧
    Spells [0x20, 0x08] .rdNominal ∧
      exec .rdNominal s = .next { s with readData := some (BitVec.ofNat 32 s.block.nominal.toNat) } ∧
    Spells [0x20, 0x0C] .rdStep ∧
      exec .rdStep s = .next { s with readData := some (BitVec.ofNat 32 s.block.stepReg.toNat) } ∧
    Spells [0x20, 0x10] .rdTrig ∧
      exec .rdTrig s = .next { s with readData := some (BitVec.ofNat 32 s.block.trig.toNat) } ∧
    Spells [0x20, 0x14] .rdCount ∧
      exec .rdCount s = .next { s with readData := some (BitVec.ofNat 32 s.block.count.toNat) } ∧
    Spells [0x20, 0x1C] .rdCapacity ∧
      exec .rdCapacity s = .next { s with readData := some (BitVec.ofNat 32 s.params.capacity.toNat) } ∧
    (s.Inv → s.block.nominal.toNat ≤ s.params.capacity.toNat ∧ s.block.count.toNat ≤ s.params.capacity.toNat) ∧
    (∀ p : Params, (State.resetWith p).block.trig = p.trigReset)

/-- R108: RD_STATUS answers the word of its layout, bit by bit, and changes nothing else; its low two bits are never
0b11 in a state of the invariant. -/
def Obligations.StatusReadsItsLayout : Prop :=
  ∀ s : State, Spells [0x20, 0x04] .rdStatus ∧ ∃ w : Word, exec .rdStatus s = .next { s with readData := some w } ∧
    w.getLsbD 0 = s.block.sr ∧ w.getLsbD 1 = s.block.recFlag ∧
    (w.extractLsb' 2 2).toNat = (match s.block.band with | .hold => 0 | .low => 1 | .high => 2) ∧
    (∀ k, 4 ≤ k → k < 8 → w.getLsbD k = false) ∧
    (∀ c : ErrorCause, w.getLsbD c.bit = s.block.sticky.get c) ∧
    (∀ k, 13 ≤ k → w.getLsbD k = false) ∧
    (s.Inv → w.extractLsb' 0 2 ≠ 0b11#2)

/-- R118, R181: RD_LEVEL answers the port fifo_level as driven at this step: the value given (`@level=n`), or the
number of samples in the reference FIFO; nothing else changes. -/
def Obligations.LevelReadsThePort : Prop :=
  ∀ s : State, Spells [0x20, 0x18] .rdLevel ∧
    (∀ n : Half, s.inputs.level = some n →
      exec .rdLevel s = .next { s with readData := some (BitVec.ofNat 32 n.toNat) }) ∧
    (s.inputs.level = none → s.env.fifo.length ≤ s.params.fifoDepth.toNat →
      exec .rdLevel s = .next { s with readData := some (BitVec.ofNat 32 s.env.fifo.length) })

/-- R122: a bus-error read answers 0 and sets BUSERR; nothing else changes. Every HOST_RD header other than the eight
register reads spells one. -/
def Obligations.BusErrorReadAnswersZero : Prop :=
  (∀ (size : Size) (off : Offset) (s : State), exec (.busErrRd size off) s = .next { s with
    readData := some 0
    block := { s.block with sticky := { s.block.sticky with buserr := true } } }) ∧
  (∀ h : Half, h.extractLsb' 14 2 = 0 → (∀ r : Reg, h ≠ 0x2000#16 ||| r.offset.zeroExtend 16) →
    ∃ size off, Spells (halfBytes h) (.busErrRd size off))

/-! ## Commands (40_host_ops) -/

/-- R103, R117, R119, R121: CMD_NOP and the writes to COUNT, LEVEL and CAPACITY change nothing at all. -/
def Obligations.IgnoredWritesChangeNothing : Prop :=
  ∀ (d : Word) (s : State),
    Spells [0x60, 0x00, 0x00, 0x00, 0x00, 0x00] .cmdNop ∧ exec .cmdNop s = .next s ∧
    Spells (halfBytes 0x6014 ++ wordBytes d) (.wrCount d) ∧ exec (.wrCount d) s = .next s ∧
    Spells (halfBytes 0x6018 ++ wordBytes d) (.wrLevel d) ∧ exec (.wrLevel d) s = .next s ∧
    Spells (halfBytes 0x601C ++ wordBytes d) (.wrCapacity d) ∧ exec (.wrCapacity d) s = .next s

/-- R104: CMD_ENABLE sets SR where REC is 0 and changes nothing else; ENABLE, DISABLE, ENABLE leaves SR set, from every
state. -/
def Obligations.EnableRequestsASession : Prop :=
  ∀ s : State, Spells [0x60, 0x00, 0x00, 0x00, 0x00, 0x01] .cmdEnable ∧
    (s.block.recFlag = false → exec .cmdEnable s = .next { s with block := { s.block with sr := true } }) ∧
    (s.block.recFlag = true → exec .cmdEnable s = .next s) ∧
    ∃ t, runOps [.cmdEnable, .cmdDisable, .cmdEnable] s = .next t ∧ t.block.sr = true

/-- R105: CMD_DISABLE clears SR and REC, returns COUNT to NOMINAL where a recording is stopped, and changes nothing
else; while Idle it changes nothing; the next EP_DONE issues no USB write. -/
def Obligations.DisableStopsTheSession : Prop :=
  ∀ s : State, Spells [0x60, 0x00, 0x00, 0x00, 0x00, 0x02] .cmdDisable ∧
    ∃ t, exec .cmdDisable s = .next t ∧ t.block.sr = false ∧ t.block.recFlag = false ∧
      (s.block.recFlag = true → t.block.count = s.block.nominal) ∧
      (s.block.recFlag = false → t.block.count = s.block.count) ∧
      (s.block.sr = false → s.block.recFlag = false → t = s) ∧
      t = { s with block := { s.block with sr := t.block.sr, recFlag := t.block.recFlag, count := t.block.count } } ∧
      ∀ (err : Byte) (inp : Inputs), ∃ u n, exec (.epDone err) (t.present inp) = .next u ∧
        (u.block.out = t.block.out ∨ u.block.out = t.block.out ++ [.dmaArm n])

/-- R106: with a start request pending, CMD_SERVICE zeroes every word of the buffer, emits FIFO_CLEAR, CAPTURE_ENABLE
and the USB_WRITE of COUNT zero words in this order, clears SR and sets REC; the collaborators respond in the same
step (R180, R183, R184, R187); nothing else changes. Without a request it changes nothing. -/
def Obligations.ServiceStartsTheSession : Prop :=
  ∀ s : State, Spells [0x60, 0x00, 0x00, 0x00, 0x00, 0x03] .cmdService ∧
    (s.block.sr = false → exec .cmdService s = .next s) ∧
    (s.block.sr = true → s.block.count.toNat ≤ s.capacity →
      ∃ t, exec .cmdService s = .next t ∧ t.block.sr = false ∧ t.block.recFlag = true ∧
        (∀ i, i < s.capacity → t.block.buf.read i = some 0) ∧
        ((∀ cell ∈ s.block.buf, cell.1 < s.capacity) → ∀ i, s.capacity ≤ i →
          t.block.buf.read i = s.block.buf.read i) ∧
        t.block.out = s.block.out ++ [.fifoClear, .captureEnable,
          .usbWrite s.block.count.toNat (List.replicate s.block.count.toNat 0)] ∧
        t.env.fifo = [] ∧ t.env.pdmEn = true ∧
        (s.inputs.accept = true → t.env.usbInflight =
          s.env.usbInflight ++ [(s.block.count.toNat, List.replicate s.block.count.toNat 0)] ∧
          t.env.history = s.env.history) ∧
        (s.inputs.accept = false → t.env.usbInflight = s.env.usbInflight ∧
          t.env.history = s.env.history ++ [.usbRejected]) ∧
        t.env.dmaIdx = s.env.dmaIdx ∧ t.env.dmaRem = s.env.dmaRem ∧
        t = { s with
          block := { s.block with sr := false, recFlag := true, buf := t.block.buf, out := t.block.out }
          env := t.env })

/-- R107: CMD_RSVD sets BADCMD and changes nothing else, whatever the word. -/
def Obligations.ReservedCommandSetsBadcmd : Prop :=
  ∀ (d : Word) (s : State),
    ((d.extractLsb' 4 28 ≠ 0 ∨ 4 ≤ (d.extractLsb' 0 4).toNat) →
      Spells (halfBytes 0x6000 ++ wordBytes d) (.cmdRsvd d)) ∧
    exec (.cmdRsvd d) s = .next { s with
      block := { s.block with sticky := { s.block.sticky with badcmd := true } } }

/-! ## Register writes (40_host_ops) -/

/-- R109: WR_STATUS clears exactly the sticky bits whose bit of D is 1 and changes nothing else. -/
def Obligations.StatusWriteClearsNamedBits : Prop :=
  ∀ (d : Word) (s : State), Spells (halfBytes 0x6004 ++ wordBytes d) (.wrStatus d) ∧
    ∃ t, exec (.wrStatus d) s = .next t ∧
      (∀ c : ErrorCause, t.block.sticky.get c = (s.block.sticky.get c && !d.getLsbD c.bit)) ∧
      t = { s with block := { s.block with sticky := t.block.sticky } }

/-- R110: while Idle, WR_NOMINAL stores `min(D[15:0], P_CAPACITY)` in NOMINAL and COUNT; at another time it sets
CFG_LOCK; nothing else changes. -/
def Obligations.NominalWriteIsLegalAndLocked : Prop :=
  ∀ (d : Word) (s : State), Spells (halfBytes 0x6008 ++ wordBytes d) (.wrNominal d) ∧
    (s.block.session = 0 → ∃ t, exec (.wrNominal d) s = .next t ∧
      t.block.nominal.toNat = min (d.toNat % 65536) s.params.capacity.toNat ∧ t.block.count = t.block.nominal ∧
      t = { s with block := { s.block with nominal := t.block.nominal, count := t.block.count } }) ∧
    (s.block.session ≠ 0 → exec (.wrNominal d) s = .next { s with
      block := { s.block with sticky := { s.block.sticky with cfgLock := true } } })

/-- R111: while Idle, WR_STEP stores D[15:0] unchanged and returns COUNT to NOMINAL; at another time it sets CFG_LOCK;
nothing else changes. -/
def Obligations.StepWriteIsLocked : Prop :=
  ∀ (d : Word) (s : State), Spells (halfBytes 0x600C ++ wordBytes d) (.wrStep d) ∧
    (s.block.session = 0 → ∃ t, exec (.wrStep d) s = .next t ∧
      t.block.stepReg.toNat = d.toNat % 65536 ∧ t.block.count = s.block.nominal ∧
      t = { s with block := { s.block with stepReg := t.block.stepReg, count := t.block.count } }) ∧
    (s.block.session ≠ 0 → exec (.wrStep d) s = .next { s with
      block := { s.block with sticky := { s.block.sticky with cfgLock := true } } })

/-- R112: while Idle, WR_TRIG stores D[15:0] unchanged, COUNT staying; at another time it sets CFG_LOCK; nothing else
changes. -/
def Obligations.TrigWriteIsLocked : Prop :=
  ∀ (d : Word) (s : State), Spells (halfBytes 0x6010 ++ wordBytes d) (.wrTrig d) ∧
    (s.block.session = 0 → ∃ t, exec (.wrTrig d) s = .next t ∧
      t.block.trig.toNat = d.toNat % 65536 ∧
      t = { s with block := { s.block with trig := t.block.trig } }) ∧
    (s.block.session ≠ 0 → exec (.wrTrig d) s = .next { s with
      block := { s.block with sticky := { s.block.sticky with cfgLock := true } } })

/-- R123: a bus-error write sets BUSERR and changes nothing else. Every HOST_WR header other than the eight register
writes spells one. -/
def Obligations.BusErrorWriteChangesNoRegister : Prop :=
  (∀ (size : Size) (off : Offset) (d : Word) (s : State), exec (.busErrWr size off d) s = .next { s with
    block := { s.block with sticky := { s.block.sticky with buserr := true } } }) ∧
  (∀ (h : Half) (d : Word), h.extractLsb' 14 2 = 1 → (∀ r : Reg, h ≠ 0x6000#16 ||| r.offset.zeroExtend 16) →
    ∃ size off, Spells (halfBytes h ++ wordBytes d) (.busErrWr size off d))

/-! ## The sample buffer (42_buffer_dma) -/

/-- R160: a DMA beat inside the buffer writes its one word; a beat at or past P_CAPACITY is dropped and sets DMA_OOR;
nothing else changes, in every session phase. -/
def Obligations.DmaWriteIsBoundsChecked : Prop :=
  ∀ (idx : Half) (data : Word) (s : State),
    Spells (halfBytes 0x8100 ++ (halfBytes idx ++ wordBytes data)) (.dmaWr idx data) ∧
    (idx.toNat < s.params.capacity.toNat → ∃ t, exec (.dmaWr idx data) s = .next t ∧
      (∀ a, a = indexOf idx → t.block.buf.read a = some data ∧
        ∀ j, j ≠ a → t.block.buf.read j = s.block.buf.read j) ∧
      t = { s with block := { s.block with buf := t.block.buf } }) ∧
    (s.params.capacity.toNat ≤ idx.toNat → exec (.dmaWr idx data) s = .next { s with
      block := { s.block with sticky := { s.block.sticky with dmaOor := true } } })

/-- R163: the buffer is written only by DMA_WR and the zero-fill of CMD_SERVICE, and read only by the payload reads of
CMD_SERVICE and EP_DONE: every other operation leaves every word, and with another buffer content its effect is the
same, the buffer itself apart. -/
def Obligations.BufferHasItsListedAccesses : Prop :=
  ∀ (i : Instr) (s t : State) (m : Memory), exec i s = .next t → i ≠ .cmdService →
    ((∀ idx d, i ≠ .dmaWr idx d) → ∀ a, t.block.buf.read a = s.block.buf.read a) ∧
    ((∀ err, i ≠ .epDone err) →
      ∃ t', exec i { s with block := { s.block with buf := m } } = .next t' ∧
        { t' with block := { t'.block with buf := t.block.buf } } = t)

/-! ## The controller (41_controller) -/

/-- R130 to R134, R136: EP_DONE. While recording it emits the USB_WRITE of the count as it stood, with the words the
buffer holds; then it samples the port once, compares, adjusts, clamps and stores COUNT and BAND; then it emits the
DMA_ARM of the new count, while not recording only where P_IDLE_REARM holds. The collaborators respond in order
(R180). Nothing else changes. The error code has no influence (R137). -/
def Obligations.CompletionRunsThePump : Prop :=
  ∀ (err : Byte) (s : State), Spells [0x80, 0x00, err] (.epDone err) ∧
    (∀ err' : Byte, exec (.epDone err') s = exec (.epDone err) s) ∧
    (∀ ws : List Word, s.block.recFlag = true → s.Holds s.block.count.toNat ws →
      ∃ t, exec (.epDone err) s = .next t ∧
        Recounted s.capacity s.fifoLevel.toNat s.block t.block ∧
        t.block.out = s.block.out ++ [.usbWrite s.block.count.toNat ws, .dmaArm t.block.count.toNat] ∧
        t.env = (s.env.respond s.inputs (.usbWrite s.block.count.toNat ws)).respond s.inputs
          (.dmaArm t.block.count.toNat) ∧
        t = { s with
          block := { s.block with
            count := t.block.count, band := t.block.band, sticky := t.block.sticky, out := t.block.out }
          env := t.env }) ∧
    (s.block.recFlag = false →
      ∃ t, exec (.epDone err) s = .next t ∧
        Recounted s.capacity s.fifoLevel.toNat s.block t.block ∧
        (s.params.idleRearm = true → t.block.out = s.block.out ++ [.dmaArm t.block.count.toNat] ∧
          t.env = s.env.respond s.inputs (.dmaArm t.block.count.toNat)) ∧
        (s.params.idleRearm = false → t.block.out = s.block.out ∧ t.env = s.env) ∧
        t = { s with
          block := { s.block with
            count := t.block.count, band := t.block.band, sticky := t.block.sticky, out := t.block.out }
          env := t.env })

/-- R139: after every EP_DONE, COUNT is at most P_CAPACITY and is NOMINAL - STEP, NOMINAL or NOMINAL + STEP; three HIGH
cycles in a row leave NOMINAL + STEP, or NOMINAL where that exceeds P_CAPACITY. -/
def Obligations.CountStaysWithinOneStep : Prop :=
  (∀ (err : Byte) (s t : State), s.block.nominal.toNat ≤ s.params.capacity.toNat → exec (.epDone err) s = .next t →
    t.block.count.toNat ≤ s.params.capacity.toNat ∧
    ((t.block.count.toNat : Int) = s.block.nominal.toNat - (s.block.stepReg.toNat : Int) ∨
      t.block.count = s.block.nominal ∨ t.block.count.toNat = s.block.nominal.toNat + s.block.stepReg.toNat)) ∧
  (∀ (e1 e2 e3 : Byte) (i1 i2 i3 : Inputs) (s t u v : State),
    s.block.nominal.toNat ≤ s.params.capacity.toNat →
    s.block.trig.toNat < (s.present i1).fifoLevel.toNat → exec (.epDone e1) (s.present i1) = .next t →
    s.block.trig.toNat < (t.present i2).fifoLevel.toNat → exec (.epDone e2) (t.present i2) = .next u →
    s.block.trig.toNat < (u.present i3).fifoLevel.toNat → exec (.epDone e3) (u.present i3) = .next v →
    v.block.count.toNat =
      if s.block.nominal.toNat + s.block.stepReg.toNat ≤ s.params.capacity.toNat
      then s.block.nominal.toNat + s.block.stepReg.toNat else s.block.nominal.toNat)

/-- R135: in two completions of one recording, the second's USB_WRITE has the length of the first's DMA_ARM and sends the
words the buffer then holds, whatever happens between that writes no COUNT: host accesses (a configuration write is
refused while recording), DMA writes and beats, PDM pushes, in any order and number, and whatever the environment then
is. Between stand no EP_DONE, DISABLE or reset, which end the cycle or the recording; a SERVICE there finds no start
request (R25: SR is 0 while recording). That the steps between are entries presented is the model's form (log 1). -/
def Obligations.UsbLengthFollowsDmaLength : Prop :=
  ∀ (e e' : Byte) (between : List Stimulus) (s t u u' v : State), s.block.recFlag = true →
    exec (.epDone e) s = .next t →
    (∀ x ∈ between, x.staysInCycle s.params) →
    (s.block.sr = true → ∀ x ∈ between, x.operation s.params ≠ some .cmdService) →
    runSteps between.length { t with agenda := between } = .next u → u'.block = u.block →
    exec (.epDone e') u' = .next v →
    ∃ before n ws m, t.block.out = before ++ [.dmaArm n] ∧ u.block.out = t.block.out ∧
      v.block.out = before ++ [.dmaArm n, .usbWrite n ws, .dmaArm m] ∧ u'.Holds n ws

/-! ## Reserved verdicts (30_encoding) -/

/-- R88: a header of class 0b11 spells RSVD_CLASS, which the machine refuses and never faults on, as a step too. The clause
that the header decodes alone and leaves whatever follows is the model's reading (log 7, DEDUCED): R88 says a decoder
does not guess a length. -/
def Obligations.ReservedClassIsRefused : Prop :=
  ∀ (h : Half) (r : BitVec 14) (s : State), exec (.rsvdClass r) s = .refused .reservedClass ∧
    (h.extractLsb' 14 2 = 0b11#2 → ∀ rest, decode (halfBytes h ++ rest) = .ok (.rsvdClass (h.extractLsb' 0 14), rest)) ∧
    (h.extractLsb' 14 2 = 0b11#2 → ∀ inp more,
      step { s with agenda := .txn inp (halfBytes h) :: more } = .refused .reservedClass)

/-- R89: a PORT header with PORT ≥ 2 or a nonzero low byte spells RSVD_PORT, which the machine refuses, as a step
too. The clause that the header decodes alone and leaves whatever follows is the model's reading (log 7, DEDUCED) and is
not in R89. -/
def Obligations.ReservedPortIsRefused : Prop :=
  ∀ (h : Half) (p : BitVec 6) (low : Byte) (s : State), exec (.rsvdPort p low) s = .refused .reservedPort ∧
    (h.extractLsb' 14 2 = 0b10#2 → (2 ≤ (h.extractLsb' 8 6).toNat ∨ h.extractLsb' 0 8 ≠ 0) →
      (∀ rest, decode (halfBytes h ++ rest) = .ok (.rsvdPort (h.extractLsb' 8 6) (h.extractLsb' 0 8), rest)) ∧
      ∀ inp more, step { s with agenda := .txn inp (halfBytes h) :: more } = .refused .reservedPort)

/-! ## Rules about every operation -/

/-- R124: the session phase moves only as its table says, from every phase but the unreachable 0b11. -/
def Obligations.SessionMovesOnlyByItsTable : Prop :=
  ∀ (i : Instr) (s t : State), exec i s = .next t → s.block.session ≠ 0b11#2 →
    t.block.session = (match i with
      | .cmdEnable => if s.block.session = 0b00#2 then 0b01#2 else s.block.session
      | .cmdDisable => 0b00#2
      | .cmdService => if s.block.session = 0b01#2 then 0b10#2 else s.block.session
      | _ => s.block.session)

/-- R25: SR and REC are never both 1: not after reset, and no step makes them so. -/
def Obligations.StartAndRecordingNeverBoth : Prop :=
  (∀ p : Params, ¬((State.resetWith p).block.sr = true ∧ (State.resetWith p).block.recFlag = true)) ∧
  ∀ s t : State, ¬(s.block.sr = true ∧ s.block.recFlag = true) → step s = .next t →
    ¬(t.block.sr = true ∧ t.block.recFlag = true)

/-- R27: a sticky bit becomes 1 only in the operations R201 names for its cause, becomes 0 only in a STATUS write with
a 1 at its place (or by reset), and stops or alters no operation: with other sticky bits every operation but the STATUS
read has the same effect, the sticky bits themselves apart. -/
def Obligations.StickyBitsMoveOnlyByTheirCauses : Prop :=
  ∀ (i : Instr) (s t : State) (c : ErrorCause), exec i s = .next t →
    (s.block.sticky.get c = false → t.block.sticky.get c = true →
      match c with
      | .clamp => ∃ err, i = .epDone err
      | .dmaOor => ∃ idx d, i = .dmaWr idx d ∧ s.params.capacity.toNat ≤ idx.toNat
      | .badcmd => ∃ d, i = .cmdRsvd d
      | .cfgLock => s.block.session ≠ 0 ∧ ∃ d, i = .wrNominal d ∨ i = .wrStep d ∨ i = .wrTrig d
      | .buserr => ∃ size off, i = .busErrRd size off ∨ ∃ d, i = .busErrWr size off d) ∧
    (s.block.sticky.get c = true → t.block.sticky.get c = false → ∃ d, i = .wrStatus d ∧ d.getLsbD c.bit = true) ∧
    (∀ k : Sticky, i ≠ .rdStatus → ∃ t', exec i { s with block := { s.block with sticky := k } } = .next t' ∧
      { t' with block := { t'.block with sticky := t.block.sticky } } = t)

/-- R205: one operation raises at most one error cause, and an error bit already set stays set (but for the clearing write
to STATUS, R27). -/
def Obligations.OneOperationRaisesOneCause : Prop :=
  ∀ (i : Instr) (s t : State) (c c' : ErrorCause), exec i s = .next t →
    (s.block.sticky.get c = false → t.block.sticky.get c = true →
      s.block.sticky.get c' = false → t.block.sticky.get c' = true → c = c') ∧
    ((∀ d, i ≠ .wrStatus d) → s.block.sticky.get c = true → t.block.sticky.get c = true)

/-- R41, R237: outside Idle no operation changes NOMINAL, STEP or TRIG, and a write to one of them changes no register and
sets CFG_LOCK. -/
def Obligations.ConfigurationIsLockedOutsideIdle : Prop :=
  ∀ (i : Instr) (s t : State), exec i s = .next t → s.block.session ≠ 0 →
    t.block.nominal = s.block.nominal ∧ t.block.stepReg = s.block.stepReg ∧ t.block.trig = s.block.trig ∧
    ((∃ d, i = .wrNominal d ∨ i = .wrStep d ∨ i = .wrTrig d) →
      t = { s with block := { s.block with sticky := { s.block.sticky with cfgLock := true } } })

/-- R28: BAND is written only by EP_DONE, and no rule reads it but RD_STATUS: with another BAND every other operation's
effect is the same, BAND itself apart. -/
def Obligations.BandIsAStatusMirror : Prop :=
  ∀ (i : Instr) (s t : State) (b : Band), exec i s = .next t →
    ((∀ err, i ≠ .epDone err) → t.block.band = s.block.band) ∧
    (i ≠ .rdStatus → ∃ t', exec i { s with block := { s.block with band := b } } = .next t' ∧
      { t' with block := { t'.block with band := t.block.band } } = t)

/-- R37, R163: the output log is only appended to, and only by CMD_SERVICE and EP_DONE. -/
def Obligations.OutputLogOnlyGrows : Prop :=
  ∀ (i : Instr) (s t : State), exec i s = .next t →
    (∃ added, t.block.out = s.block.out ++ added) ∧
    (i ≠ .cmdService → (∀ err, i ≠ .epDone err) → t.block.out = s.block.out ∧ t.env = s.env)

/-- R100: no operation but RD_LEVEL and EP_DONE reads fifo_level: with the port driven otherwise, every other
operation's effect is the same. -/
def Obligations.OnlyLevelReadAndCompletionSampleTheFifo : Prop :=
  ∀ (i : Instr) (s t : State) (l : Option Half), exec i s = .next t → i ≠ .rdLevel → (∀ err, i ≠ .epDone err) →
    exec i (s.present { s.inputs with level := l }) = .next (t.present { s.inputs with level := l })

/-- R100, R200: no host operation and no port event waits, blocks or fails: in every state of the invariant each
well-formed operation other than the two reserved verdicts completes. -/
def Obligations.EveryOperationCompletes : Prop :=
  ∀ (i : Instr) (s : State), s.Inv → (∀ p low, i ≠ .rsvdPort p low) → (∀ r, i ≠ .rsvdClass r) →
    ∃ t, exec i s = .next t

/-! ## The machine as a whole -/

/-- R8, R34: no step changes a parameter. -/
def Obligations.ParametersNeverChange : Prop :=
  ∀ s t : State, step s = .next t → t.params = s.params

/-- R230, R191: the values after the reset input, for any parameters and from any state, with the collaborators reset too
(R231) and without them (R233). The model's own: the buffer words read as no value (log 5, DESIGN CHOICE among U1's
treatments), the entries still to come stay (log 10, DESIGN CHOICE), and with nothing presented a step leaves the state
(log 1, DESIGN CHOICE, for R230's "after reset it waits for operations"). -/
def Obligations.ResetGivesTheResetValues : Prop :=
  ∀ (s : State) (c : Bool) (more : List Stimulus), s.agenda = .rst c :: more →
    ∃ t, step s = .next t ∧ t.block.sr = false ∧ t.block.recFlag = false ∧ t.block.band = .hold ∧
      t.block.nominal.toNat = min s.params.nominalReset.toNat s.params.capacity.toNat ∧
      t.block.stepReg = s.params.stepReset ∧ t.block.trig = s.params.trigReset ∧
      t.block.count = t.block.nominal ∧ (∀ e : ErrorCause, t.block.sticky.get e = false) ∧
      (∀ i, t.block.buf.read i = none) ∧ t.block.out = [] ∧
      (c = true → t.env.fifo = [] ∧ t.env.pdmEn = false ∧ t.env.dmaRem = 0 ∧ t.env.dmaIdx = 0 ∧
        t.env.usbInflight = [] ∧ t.env.history = []) ∧
      (c = false → t.env = s.env) ∧ t.params = s.params ∧ t.agenda = more ∧ (more = [] → step t = .next t)

/-- The invariant holds right after reset, for every legal choice of the parameters and whatever is then presented. -/
def Obligations.InvariantHoldsAtReset : Prop :=
  State.reset.Inv ∧ ∀ (p : Params) (todo : List Stimulus), p.legal = true →
    ({ State.resetWith p with agenda := todo } : State).Inv

/-- R25, R29, R36, R37, R42, R162, R164, R181, R185, R187: every step keeps the invariant. -/
def Obligations.StepKeepsTheInvariant : Prop :=
  ∀ s t : State, s.Inv → step s = .next t → t.Inv

/-- R164, R200: in a state of the invariant no step faults: no payload ever holds a word that nothing has written, or
one outside the buffer. -/
def Obligations.NoStepFaults : Prop :=
  ∀ (s : State) (f : Fault), s.Inv → step s ≠ .fault f

/-- R164: no run from reset faults, with any legal parameters and anything presented, however long. -/
def Obligations.NoRunFromResetFaults : Prop :=
  ∀ (p : Params) (todo : List Stimulus) (k : Nat), p.legal = true →
    ({ State.resetWith p with agenda := todo } : State).faultFree k

/-! ## The environment (43_environment) -/

/-- R182: a PDM push while capture is enabled appends its sample, or, the FIFO being full, loses it and records
FIFO_OVERFLOW. Nothing else of the block or the environment changes; the entry leaves the agenda (log 1, DESIGN CHOICE)
and the read-data port goes idle (log 3, DESIGN CHOICE). While capture is not enabled there is no such step, which the
model refuses by name (log 9, DESIGN CHOICE). -/
def Obligations.PdmPushFillsTheFifo : Prop :=
  ∀ (s : State) (w : Word) (more : List Stimulus), s.agenda = .pdmPush w :: more →
    (s.env.pdmEn = false → step s = .refused (.notEnabled .pdm)) ∧
    (s.env.pdmEn = true → s.env.fifo.length < s.params.fifoDepth.toNat → step s = .next { s with
      agenda := more, readData := none, env := { s.env with fifo := s.env.fifo ++ [w] } }) ∧
    (s.env.pdmEn = true → s.params.fifoDepth.toNat ≤ s.env.fifo.length → step s = .next { s with
      agenda := more, readData := none, env := { s.env with history := s.env.history ++ [.fifoOverflow] } })

/-- R186: a DMA beat takes the oldest sample into the buffer at `dma_idx`, in the same step, and moves on; in a state of
the invariant it never raises DMA_OOR. Nothing else of the block or the environment changes; the entry leaves the agenda
(log 1, DESIGN CHOICE) and the read-data port goes idle (log 3, DESIGN CHOICE). With no beat left or an empty FIFO there
is no such step, which the model refuses by name (log 9, DESIGN CHOICE). -/
def Obligations.DmaBeatMovesOneSample : Prop :=
  ∀ (s : State) (more : List Stimulus), s.agenda = .dmaBeat :: more →
    (s.env.dmaRem = 0 ∨ s.env.fifo = [] → step s = .refused (.notEnabled .dma)) ∧
    (∀ w ws, s.env.fifo = w :: ws → 0 < s.env.dmaRem → s.Inv →
      ∃ t, step s = .next t ∧ t.block.buf.read s.env.dmaIdx = some w ∧
        (∀ j, j ≠ s.env.dmaIdx → t.block.buf.read j = s.block.buf.read j) ∧
        t = { s with
          agenda := more, readData := none
          block := { s.block with buf := t.block.buf }
          env := { s.env with fifo := ws, dmaIdx := s.env.dmaIdx + 1, dmaRem := s.env.dmaRem - 1 } })

/-- R185: an idle DMA channel takes an armed transfer from index 0; a busy one restarts or refuses by the draw, and a
refusal is recorded and the old transfer goes on. -/
def Obligations.DmaArmIsAcceptedOrRefused : Prop :=
  ∀ (e : Env) (inp : Inputs) (n : Nat),
    (e.dmaRem = 0 ∨ inp.restart = true → e.respond inp (.dmaArm n) = { e with dmaIdx := 0, dmaRem := n }) ∧
    (e.dmaRem ≠ 0 → inp.restart = false →
      e.respond inp (.dmaArm n) = { e with history := e.history ++ [.dmaRejected] })

/-- R187: a USB_WRITE is accepted behind the transfers in flight, or refused and recorded, by the draw. -/
def Obligations.UsbWriteIsAcceptedOrRefused : Prop :=
  ∀ (e : Env) (inp : Inputs) (n : Nat) (ws : List Word),
    (inp.accept = true → e.respond inp (.usbWrite n ws) = { e with usbInflight := e.usbInflight ++ [(n, ws)] }) ∧
    (inp.accept = false → e.respond inp (.usbWrite n ws) = { e with history := e.history ++ [.usbRejected] })

/-- R188 under ENV_REF: a completion is delivered only for the head transfer in flight, which is removed; the block then
performs EP_DONE with the reference FIFO's level. The entry leaves the agenda (log 1, DESIGN CHOICE) and the read-data
port goes idle (log 3, DESIGN CHOICE). With nothing in flight there is no such step, which the model refuses by name
(log 9, DESIGN CHOICE). -/
def Obligations.ReferenceCompletionNeedsATransfer : Prop :=
  ∀ (s : State) (a r : Bool) (err : Byte) (more : List Stimulus), s.agenda = .usbDone a r err :: more →
    (s.env.usbInflight = [] → step s = .refused (.notEnabled .usb)) ∧
    (∀ x xs, s.env.usbInflight = x :: xs → step s = exec (.epDone err) { s with
      agenda := more, readData := none
      inputs := { level := none, accept := a, restart := r }
      env := { s.env with usbInflight := xs } })

/-- R183, R184: the FIFO is emptied by FIFO_CLEAR and capture enabled by CAPTURE_ENABLE; once enabled, capture stays
enabled in every step but a reset with the collaborators (R231). -/
def Obligations.CaptureRequestsAreObeyed : Prop :=
  (∀ (e : Env) (inp : Inputs), e.respond inp .fifoClear = { e with fifo := [] } ∧
    e.respond inp .captureEnable = { e with pdmEn := true }) ∧
  ∀ s t : State, step s = .next t → s.env.pdmEn = true → (∀ more, s.agenda ≠ .rst true :: more) →
    t.env.pdmEn = true

/-- R186: under the reference environment DMA_OOR is never raised, in any run of any length. -/
def Obligations.ReferenceRunsNeverRaiseDmaOor : Prop :=
  ∀ (k : Nat) (s t : State), s.Inv → s.underReference → s.block.sticky.dmaOor = false →
    runSteps k s = .next t → t.block.sticky.dmaOor = false

/-! ## Sequences of commands -/

/-- R238: of any ENABLE and DISABLE commands between two SERVICE calls only the last counts: from a state that is not
recording, SR is then 1 exactly where the last command was ENABLE (or there was none and SR was 1), and nothing else
has changed. -/
def Obligations.RequestsCoalesce : Prop :=
  ∀ (cmds : List Bool) (s : State), s.block.recFlag = false →
    runOps (cmds.map fun enable => if enable then .cmdEnable else .cmdDisable) s =
      .next { s with block := { s.block with sr := cmds.getLast?.getD s.block.sr } }

/-- R105 (the source's round trip): from Idle, ENABLE, DISABLE and then any number of SERVICE commands leave the state as
it was, so no transfer is ever issued. -/
def Obligations.EnableThenDisableIssuesNothing : Prop :=
  ∀ (n : Nat) (s : State), s.block.session = 0 →
    runOps (.cmdEnable :: .cmdDisable :: List.replicate n .cmdService) s = .next s

/-- R64: a host operation repeated at once changes nothing more: a second read answers the same value, a second write to a
register, ENABLE, DISABLE or bus-error access leaves the state as the first left it, and a second SERVICE does nothing,
because the first cleared SR. R64 excepts LEVEL from reading the same value twice; of RD_LEVEL this says so only with the
port driven as before: the inputs of the step stand between the two operations, which is the model's (log 2, DESIGN
CHOICE). -/
def Obligations.RepeatedHostOperationChangesNothingMore : Prop :=
  ∀ (i : Instr) (s t : State), (∀ err, i ≠ .epDone err) → (∀ idx d, i ≠ .dmaWr idx d) →
    exec i s = .next t → exec i t = .next t
end

