-- ==== Sys2Proof/Laws/Bits.lean ====
section
/-! SUPPORT. Bit fields of concatenations, and bytes to halves and words and back. -/

namespace Sys2Proof

/-- The low field of a concatenation. -/
theorem extractLsb'_append_low {m n : Nat} (a : BitVec m) (b : BitVec n) :
    (a ++ b).extractLsb' 0 n = b := by
  apply BitVec.eq_of_getLsbD_eq
  intro i hi
  simp [BitVec.getLsbD_append, hi]

/-- The high field of a concatenation. -/
theorem extractLsb'_append_high {m n : Nat} (a : BitVec m) (b : BitVec n) :
    (a ++ b).extractLsb' n m = a := by
  apply BitVec.eq_of_getLsbD_eq
  intro i hi
  simp [BitVec.getLsbD_append, hi]

/-- A bit of a concatenation. -/
theorem append_bit {m n : Nat} (a : BitVec m) (b : BitVec n) (i : Nat) :
    (a ++ b).getLsbD i = if i < n then b.getLsbD i else a.getLsbD (i - n) :=
  BitVec.getLsbD_append

/-- The two bytes of a half, joined again. -/
@[simp] theorem halfOf_bytes (h : Half) : halfOf (h.extractLsb' 8 8) (h.extractLsb' 0 8) = h := by
  apply BitVec.eq_of_getLsbD_eq
  intro i hi
  simp only [halfOf, BitVec.getLsbD_append, BitVec.getLsbD_extractLsb']
  by_cases h8 : i < 8
  · simp [h8]
  · have e : 8 + (i - 8) = i := by omega
    have l : i - 8 < 8 := by omega
    simp [h8, e, l]

/-- The four bytes of a word, joined again. -/
@[simp] theorem wordOf_bytes (w : Word) :
    wordOf (w.extractLsb' 24 8) (w.extractLsb' 16 8) (w.extractLsb' 8 8) (w.extractLsb' 0 8) = w := by
  apply BitVec.eq_of_getLsbD_eq
  intro i hi
  simp only [wordOf, BitVec.getLsbD_append, BitVec.getLsbD_extractLsb']
  by_cases h8 : i < 8
  · simp [h8]
  · by_cases h16 : i - 8 < 8
    · have e : 8 + (i - 8) = i := by omega
      simp [h8, h16, e]
    · by_cases h24 : i - 8 - 8 < 8
      · have e : 16 + (i - 8 - 8) = i := by omega
        simp [h8, h16, h24, e]
      · have e : 24 + (i - 8 - 8 - 8) = i := by omega
        have l : i - 8 - 8 - 8 < 8 := by omega
        simp [h8, h16, h24, e, l]

/-- A field that lies above the low part of a concatenation is a field of the high part. -/
theorem extractLsb'_append_above {m n : Nat} (a : BitVec m) (b : BitVec n) (k len : Nat) :
    (a ++ b).extractLsb' (n + k) len = a.extractLsb' k len := by
  apply BitVec.eq_of_getLsbD_eq
  intro i hi
  have e : ¬ n + k + i < n := by omega
  have e2 : n + k + i - n = k + i := by omega
  simp [BitVec.getLsbD_append, hi, e, e2]

/-- The bytes of a half made of two bytes. -/
@[simp] theorem halfBytes_halfOf (b1 b0 : Byte) : halfBytes (halfOf b1 b0) = [b1, b0] := by
  have high : (halfOf b1 b0).extractLsb' 8 8 = b1 := extractLsb'_append_high b1 b0
  have low : (halfOf b1 b0).extractLsb' 0 8 = b0 := extractLsb'_append_low b1 b0
  rw [halfBytes, high, low]

/-- The bytes of a word made of four bytes. -/
@[simp] theorem wordBytes_wordOf (b3 b2 b1 b0 : Byte) : wordBytes (wordOf b3 b2 b1 b0) = [b3, b2, b1, b0] := by
  have f0 : (wordOf b3 b2 b1 b0).extractLsb' 0 8 = b0 := extractLsb'_append_low (b3 ++ b2 ++ b1) b0
  have f1 : (wordOf b3 b2 b1 b0).extractLsb' 8 8 = b1 :=
    (extractLsb'_append_above (b3 ++ b2 ++ b1) b0 0 8).trans (extractLsb'_append_low (b3 ++ b2) b1)
  have f2 : (wordOf b3 b2 b1 b0).extractLsb' 16 8 = b2 :=
    (extractLsb'_append_above (b3 ++ b2 ++ b1) b0 8 8).trans
      ((extractLsb'_append_above (b3 ++ b2) b1 0 8).trans (extractLsb'_append_low b3 b2))
  have f3 : (wordOf b3 b2 b1 b0).extractLsb' 24 8 = b3 :=
    (extractLsb'_append_above (b3 ++ b2 ++ b1) b0 16 8).trans
      ((extractLsb'_append_above (b3 ++ b2) b1 8 8).trans (extractLsb'_append_high b3 b2))
  rw [wordBytes, f3, f2, f1, f0]

/-- A SIZE field read back. -/
@[simp] theorem Size.ofCode_code (z : Size) : Size.ofCode z.code = z := by
  cases z <;> rfl

/-- A SIZE written back. -/
@[simp] theorem Size.code_ofCode (c : BitVec 2) : (Size.ofCode c).code = c := by
  revert c; decide

end Sys2Proof
end

