-- ==== Sys2Proof/Laws/State.lean ====
section
/-! SUPPORT. One lemma per field per update: what each named update of State leaves in every field. -/

namespace Sys2Proof.Machine

/-! ### setBlock -/

@[simp] theorem State.setBlock_params (s : State) (b : Block) :
    (s.setBlock b).params = s.params := rfl

@[simp] theorem State.setBlock_block (s : State) (b : Block) :
    (s.setBlock b).block = b := rfl

@[simp] theorem State.setBlock_env (s : State) (b : Block) :
    (s.setBlock b).env = s.env := rfl

@[simp] theorem State.setBlock_inputs (s : State) (b : Block) :
    (s.setBlock b).inputs = s.inputs := rfl

@[simp] theorem State.setBlock_readData (s : State) (b : Block) :
    (s.setBlock b).readData = s.readData := rfl

@[simp] theorem State.setBlock_agenda (s : State) (b : Block) :
    (s.setBlock b).agenda = s.agenda := rfl

@[simp] theorem State.setBlock_capacity (s : State) (b : Block) :
    (s.setBlock b).capacity = s.capacity := rfl

/-! ### setEnv -/

@[simp] theorem State.setEnv_params (s : State) (e : Env) :
    (s.setEnv e).params = s.params := rfl

@[simp] theorem State.setEnv_block (s : State) (e : Env) :
    (s.setEnv e).block = s.block := rfl

@[simp] theorem State.setEnv_env (s : State) (e : Env) :
    (s.setEnv e).env = e := rfl

@[simp] theorem State.setEnv_inputs (s : State) (e : Env) :
    (s.setEnv e).inputs = s.inputs := rfl

@[simp] theorem State.setEnv_readData (s : State) (e : Env) :
    (s.setEnv e).readData = s.readData := rfl

@[simp] theorem State.setEnv_agenda (s : State) (e : Env) :
    (s.setEnv e).agenda = s.agenda := rfl

@[simp] theorem State.setEnv_capacity (s : State) (e : Env) :
    (s.setEnv e).capacity = s.capacity := rfl

/-! ### answer -/

@[simp] theorem State.answer_params (s : State) (w : Word) :
    (s.answer w).params = s.params := rfl

@[simp] theorem State.answer_block (s : State) (w : Word) :
    (s.answer w).block = s.block := rfl

@[simp] theorem State.answer_env (s : State) (w : Word) :
    (s.answer w).env = s.env := rfl

@[simp] theorem State.answer_inputs (s : State) (w : Word) :
    (s.answer w).inputs = s.inputs := rfl

@[simp] theorem State.answer_readData (s : State) (w : Word) :
    (s.answer w).readData = some w := rfl

@[simp] theorem State.answer_agenda (s : State) (w : Word) :
    (s.answer w).agenda = s.agenda := rfl

@[simp] theorem State.answer_capacity (s : State) (w : Word) :
    (s.answer w).capacity = s.capacity := rfl

/-! ### raise -/

@[simp] theorem State.raise_params (s : State) (c : ErrorCause) :
    (s.raise c).params = s.params := rfl

@[simp] theorem State.raise_block (s : State) (c : ErrorCause) :
    (s.raise c).block = { s.block with sticky := s.block.sticky.set c } := rfl

@[simp] theorem State.raise_env (s : State) (c : ErrorCause) :
    (s.raise c).env = s.env := rfl

@[simp] theorem State.raise_inputs (s : State) (c : ErrorCause) :
    (s.raise c).inputs = s.inputs := rfl

@[simp] theorem State.raise_readData (s : State) (c : ErrorCause) :
    (s.raise c).readData = s.readData := rfl

@[simp] theorem State.raise_agenda (s : State) (c : ErrorCause) :
    (s.raise c).agenda = s.agenda := rfl

@[simp] theorem State.raise_capacity (s : State) (c : ErrorCause) :
    (s.raise c).capacity = s.capacity := rfl

/-! ### emit -/

@[simp] theorem State.emit_params (s : State) (ev : Event) :
    (s.emit ev).params = s.params := rfl

@[simp] theorem State.emit_block (s : State) (ev : Event) :
    (s.emit ev).block = { s.block with out := s.block.out ++ [ev] } := rfl

@[simp] theorem State.emit_env (s : State) (ev : Event) :
    (s.emit ev).env = s.env.respond s.inputs ev := rfl

@[simp] theorem State.emit_inputs (s : State) (ev : Event) :
    (s.emit ev).inputs = s.inputs := rfl

@[simp] theorem State.emit_readData (s : State) (ev : Event) :
    (s.emit ev).readData = s.readData := rfl

@[simp] theorem State.emit_agenda (s : State) (ev : Event) :
    (s.emit ev).agenda = s.agenda := rfl

@[simp] theorem State.emit_capacity (s : State) (ev : Event) :
    (s.emit ev).capacity = s.capacity := rfl

/-! ### zeroFill -/

@[simp] theorem State.zeroFill_params (s : State) :
    (s.zeroFill).params = s.params := rfl

@[simp] theorem State.zeroFill_block (s : State) :
    (s.zeroFill).block = { s.block with buf := Memory.zeros s.capacity } := rfl

@[simp] theorem State.zeroFill_env (s : State) :
    (s.zeroFill).env = s.env := rfl

@[simp] theorem State.zeroFill_inputs (s : State) :
    (s.zeroFill).inputs = s.inputs := rfl

@[simp] theorem State.zeroFill_readData (s : State) :
    (s.zeroFill).readData = s.readData := rfl

@[simp] theorem State.zeroFill_agenda (s : State) :
    (s.zeroFill).agenda = s.agenda := rfl

@[simp] theorem State.zeroFill_capacity (s : State) :
    (s.zeroFill).capacity = s.capacity := rfl

/-! ### beginEntry -/

@[simp] theorem State.beginEntry_params (s : State) (more : List Stimulus) :
    (s.beginEntry more).params = s.params := rfl

@[simp] theorem State.beginEntry_block (s : State) (more : List Stimulus) :
    (s.beginEntry more).block = s.block := rfl

@[simp] theorem State.beginEntry_env (s : State) (more : List Stimulus) :
    (s.beginEntry more).env = s.env := rfl

@[simp] theorem State.beginEntry_inputs (s : State) (more : List Stimulus) :
    (s.beginEntry more).inputs = s.inputs := rfl

@[simp] theorem State.beginEntry_readData (s : State) (more : List Stimulus) :
    (s.beginEntry more).readData = none := rfl

@[simp] theorem State.beginEntry_agenda (s : State) (more : List Stimulus) :
    (s.beginEntry more).agenda = more := rfl

@[simp] theorem State.beginEntry_capacity (s : State) (more : List Stimulus) :
    (s.beginEntry more).capacity = s.capacity := rfl

/-! ### present -/

@[simp] theorem State.present_params (s : State) (inp : Inputs) :
    (s.present inp).params = s.params := rfl

@[simp] theorem State.present_block (s : State) (inp : Inputs) :
    (s.present inp).block = s.block := rfl

@[simp] theorem State.present_env (s : State) (inp : Inputs) :
    (s.present inp).env = s.env := rfl

@[simp] theorem State.present_inputs (s : State) (inp : Inputs) :
    (s.present inp).inputs = inp := rfl

@[simp] theorem State.present_readData (s : State) (inp : Inputs) :
    (s.present inp).readData = s.readData := rfl

@[simp] theorem State.present_agenda (s : State) (inp : Inputs) :
    (s.present inp).agenda = s.agenda := rfl

@[simp] theorem State.present_capacity (s : State) (inp : Inputs) :
    (s.present inp).capacity = s.capacity := rfl

/-! ### applyReset -/

@[simp] theorem State.applyReset_params (s : State) (c : Bool) :
    (s.applyReset c).params = s.params := rfl

@[simp] theorem State.applyReset_block (s : State) (c : Bool) :
    (s.applyReset c).block = Block.reset s.params := rfl

@[simp] theorem State.applyReset_env (s : State) (c : Bool) :
    (s.applyReset c).env = if c then Env.reset else s.env := rfl

@[simp] theorem State.applyReset_inputs (s : State) (c : Bool) :
    (s.applyReset c).inputs = s.inputs := rfl

@[simp] theorem State.applyReset_readData (s : State) (c : Bool) :
    (s.applyReset c).readData = s.readData := rfl

@[simp] theorem State.applyReset_agenda (s : State) (c : Bool) :
    (s.applyReset c).agenda = s.agenda := rfl

@[simp] theorem State.applyReset_capacity (s : State) (c : Bool) :
    (s.applyReset c).capacity = s.capacity := rfl

/-! ### Sticky bits (R27) -/

/-- Setting one sticky bit sets it and leaves the others. -/
@[simp] theorem Sticky.get_set (k : Sticky) (c c' : ErrorCause) :
    (k.set c).get c' = (decide (c' = c) || k.get c') := by
  cases c <;> cases c' <;> rfl

/-- Clearing by mask clears exactly the bits the mask names. -/
theorem Sticky.get_clear (k : Sticky) (mask : BitVec 5) (c : ErrorCause) :
    (k.clear mask).get c = (k.get c && !mask.getLsbD (c.bit - 8)) := by
  cases c <;> rfl

/-- Two settings of the sticky bits that agree bit by bit are equal. -/
theorem Sticky.ext_get {k k' : Sticky} (h : ∀ c, k.get c = k'.get c) : k = k' := by
  have h1 := h .clamp
  have h2 := h .dmaOor
  have h3 := h .badcmd
  have h4 := h .cfgLock
  have h5 := h .buserr
  cases k; cases k'; simp_all [Sticky.get]

/-- The mask of a STATUS write holds, at an error cause's place, that cause's bit of the data word (R87). -/
theorem getLsbD_clearMaskOf (d : Word) (c : ErrorCause) : (clearMaskOf d).getLsbD (c.bit - 8) = d.getLsbD c.bit := by
  cases c <;> simp [clearMaskOf, ErrorCause.bit]

/-! ### STATUS and the operands, bit by bit -/

/-- Every bit of STATUS as a read returns it (R26, R108). -/
theorem Block.statusWord_bit (b : Block) (k : Nat) : b.statusWord.getLsbD k =
    if k = 0 then b.sr else if k = 1 then b.recFlag
    else if k < 4 then b.band.code.getLsbD (k - 2)
    else if k < 8 then false
    else if k = 8 then b.sticky.clamp else if k = 9 then b.sticky.dmaOor else if k = 10 then b.sticky.badcmd
    else if k = 11 then b.sticky.cfgLock else if k = 12 then b.sticky.buserr else false := by
  unfold Block.statusWord
  rw [append_bit, append_bit, append_bit, append_bit, append_bit, append_bit, append_bit, append_bit, append_bit]
  simp only [BitVec.getLsbD_ofBool, Nat.sub_sub]
  by_cases hk : k < 13
  · obtain h | h | h | h | h | h | h | h | h | h | h | h | h : k = 0 ∨ k = 1 ∨ k = 2 ∨ k = 3 ∨ k = 4 ∨ k = 5 ∨ k = 6 ∨
      k = 7 ∨ k = 8 ∨ k = 9 ∨ k = 10 ∨ k = 11 ∨ k = 12 := by omega
    all_goals subst h; simp
  · simp (disch := omega) only [if_neg]
    simp

/-- STATUS[1:0] reads as SESSION (R26). -/
theorem Block.statusWord_session (b : Block) : b.statusWord.extractLsb' 0 2 = b.session := by
  apply BitVec.eq_of_getLsbD_eq
  intro i hi
  rw [Block.session, append_bit, BitVec.getLsbD_extractLsb', Block.statusWord_bit]
  obtain rfl | rfl : i = 0 ∨ i = 1 := by omega
  · simp
  · simp

/-- STATUS[3:2] reads as BAND's code (R26, R28). -/
theorem Block.statusWord_band (b : Block) : b.statusWord.extractLsb' 2 2 = b.band.code := by
  apply BitVec.eq_of_getLsbD_eq
  intro i hi
  rw [BitVec.getLsbD_extractLsb', Block.statusWord_bit]
  obtain rfl | rfl : i = 0 ∨ i = 1 := by omega
  · simp
  · simp

/-- The session is Idle exactly where SESSION is 0 (R24). -/
theorem Block.session_eq_zero {b : Block} : b.session = 0 ↔ b.idle = true := by
  unfold Block.session Block.idle
  cases b.recFlag <;> cases b.sr <;> decide

/-- Zero-extension as a number. -/
theorem zext32_eq (h : Half) : zext32 h = BitVec.ofNat 32 h.toNat := by
  apply BitVec.eq_of_toNat_eq
  have := h.isLt
  simp [zext32]

/-- `D[15:0]` as a number. -/
theorem valueOf_toNat (d : Word) : (valueOf d).toNat = d.toNat % 65536 := by
  simp [valueOf]

end Sys2Proof.Machine
end

