-- ==== Sys2Proof/Laws/Memory.lean ====
section
/-! SUPPORT. The sample buffer: reads after writes, the canonical form, and the zero-filled buffer. -/

namespace Sys2Proof.Machine

/-- A read after a write: the written word at its index, everywhere else as before. -/
theorem Memory.read_write (m : Memory) (i j : Nat) (w : Word) :
    (m.write i w).read j = if j = i then some w else m.read j := by
  induction m with
  | nil => simp [Memory.write, Memory.read]
  | cons c more ih =>
    obtain ⟨k, v⟩ := c
    simp only [Memory.write]
    split
    · simp [Memory.read]
    · split
      · rename_i h
        subst h
        by_cases hj : j = i <;> simp [Memory.read, hj]
      · rename_i h
        by_cases hk : j = k
        · have : j ≠ i := fun e => h (e ▸ hk)
          simp [Memory.read, hk, show k ≠ i from fun e => h e.symm]
        · simp [Memory.read, hk, ih]

@[simp] theorem Memory.read_write_same (m : Memory) (i : Nat) (w : Word) : (m.write i w).read i = some w := by
  simp [Memory.read_write]

theorem Memory.read_write_other {i j : Nat} (m : Memory) (w : Word) (h : j ≠ i) :
    (m.write i w).read j = m.read j := by
  simp [Memory.read_write, h]

/-- A cell of a written buffer is the written one or one of before. -/
theorem Memory.mem_write {m : Memory} {i : Nat} {w : Word} {cell : Nat × Word} (h : cell ∈ m.write i w) :
    cell = (i, w) ∨ cell ∈ m := by
  induction m with
  | nil => simpa [Memory.write] using h
  | cons c more ih =>
    obtain ⟨k, v⟩ := c
    simp only [Memory.write] at h
    split at h
    · simpa using h
    · split at h
      · rcases List.mem_cons.mp h with h | h
        · exact .inl h
        · exact .inr (List.mem_cons_of_mem _ h)
      · rcases List.mem_cons.mp h with h | h
        · exact .inr (h ▸ List.mem_cons_self)
        · exact (ih h).imp_right (List.mem_cons_of_mem _)

/-- A write keeps the canonical form. -/
theorem Memory.write_wf {m : Memory} (h : m.wf) (i : Nat) (w : Word) : (m.write i w).wf := by
  induction m with
  | nil => simp [Memory.write]
  | cons c more ih =>
    obtain ⟨k, v⟩ := c
    obtain ⟨hk, hm⟩ := List.pairwise_cons.mp h
    simp only [Memory.write]
    split
    · rename_i hi
      refine List.pairwise_cons.mpr ⟨?_, h⟩
      intro a ha
      rcases List.mem_cons.mp ha with rfl | ha
      · exact hi
      · exact Nat.lt_trans hi (hk a ha)
    · split
      · rename_i hi
        subst hi
        exact List.pairwise_cons.mpr ⟨hk, hm⟩
      · refine List.pairwise_cons.mpr ⟨?_, ih hm⟩
        intro a ha
        rcases Memory.mem_write ha with rfl | ha
        · exact Nat.lt_of_le_of_ne (Nat.le_of_not_lt ‹_›) (Ne.symm ‹_›)
        · exact hk a ha

/-- A write inside a bound keeps every cell inside it. -/
theorem Memory.write_inside {m : Memory} {cap i : Nat} (h : ∀ cell ∈ m, cell.1 < cap) (hi : i < cap) (w : Word) :
    ∀ cell ∈ m.write i w, cell.1 < cap := by
  intro cell hc
  rcases Memory.mem_write hc with rfl | hc
  · exact hi
  · exact h cell hc

/-- An index below every cell reads as unlisted. -/
theorem Memory.read_eq_none {m : Memory} {i : Nat} (h : ∀ cell ∈ m, cell.1 ≠ i) : m.read i = none := by
  induction m with
  | nil => rfl
  | cons c more ih =>
    obtain ⟨k, v⟩ := c
    have hk : i ≠ k := fun e => h (k, v) List.mem_cons_self e.symm
    simp only [Memory.read, if_neg hk]
    exact ih fun cell hc => h cell (List.mem_cons_of_mem _ hc)

/-- An index outside the buffer reads as no value. -/
theorem Memory.read_outside {m : Memory} {cap i : Nat} (h : ∀ cell ∈ m, cell.1 < cap) (hi : cap ≤ i) :
    m.read i = none :=
  Memory.read_eq_none fun cell hc e => by have := h cell hc; omega

/-- Two buffers in canonical form that read alike everywhere are the same list. -/
theorem Memory.eq_of_read_eq {m m' : Memory} (h : m.wf) (h' : m'.wf) (e : ∀ i, m.read i = m'.read i) : m = m' := by
  induction m generalizing m' with
  | nil =>
    cases m' with
    | nil => rfl
    | cons c more => have := e c.1; simp [Memory.read, Memory.unlisted] at this
  | cons c more ih =>
    cases m' with
    | nil => have := e c.1; simp [Memory.read, Memory.unlisted] at this
    | cons c' more' =>
      obtain ⟨k, v⟩ := c
      obtain ⟨k', v'⟩ := c'
      obtain ⟨hk, hm⟩ := List.pairwise_cons.mp h
      obtain ⟨hk', hm'⟩ := List.pairwise_cons.mp h'
      have below : ∀ {n : Memory} {j i : Nat}, (∀ a ∈ n, j < a.1) → i ≤ j → n.read i = none :=
        fun hn hij => Memory.read_eq_none fun cell hc eq => by have := hn cell hc; omega
      have hkk : k = k' := by
        rcases Nat.lt_trichotomy k k' with hlt | heq | hgt
        · have := e k
          simp [Memory.read, Nat.ne_of_lt hlt, below hk' (Nat.le_of_lt hlt)] at this
        · exact heq
        · have := e k'
          simp [Memory.read, Nat.ne_of_lt hgt, below hk (Nat.le_of_lt hgt)] at this
      subst hkk
      have hv : v = v' := by have := e k; simpa [Memory.read] using this
      subst hv
      have hmore : more = more' := by
        refine ih hm hm' fun i => ?_
        by_cases hi : i = k
        · subst hi
          rw [below hk (Nat.le_refl _), below hk' (Nat.le_refl _)]
        · have := e i
          simpa [Memory.read, hi] using this
      rw [hmore]

/-! ### The zero-filled buffer (R161) -/

/-- A list of cells by index reads by index. -/
theorem Memory.read_map_range' (f : Nat → Word) (n : Nat) : ∀ start i,
    Memory.read ((List.range' start n).map fun j => (j, f j)) i =
      if start ≤ i ∧ i < start + n then some (f i) else none := by
  induction n with
  | zero =>
    intro start i
    rw [if_neg (by omega)]
    rfl
  | succ n ih =>
    intro start i
    simp only [List.range'_succ, List.map_cons, Memory.read, ih]
    by_cases h : i = start
    · subst h
      rw [if_pos rfl, if_pos (by omega)]
    · rw [if_neg h]
      by_cases hi : start + 1 ≤ i ∧ i < start + 1 + n
      · rw [if_pos hi, if_pos (by omega)]
      · rw [if_neg hi, if_neg (by omega)]

/-- Every word of a zero-filled buffer is zero, and it has no other. -/
theorem Memory.read_zeros (cap i : Nat) : (Memory.zeros cap).read i = if i < cap then some 0#32 else none := by
  have h := Memory.read_map_range' (fun _ => 0#32) cap 0 i
  rw [Memory.zeros, List.range_eq_range', h]
  by_cases hi : i < cap
  · rw [if_pos (by omega), if_pos hi]
  · rw [if_neg (by omega), if_neg hi]

theorem Memory.zeros_wf (cap : Nat) : (Memory.zeros cap).wf := by
  rw [Memory.zeros, Memory.wf, List.pairwise_map]
  exact List.pairwise_lt_range

theorem Memory.zeros_inside (cap : Nat) : ∀ cell ∈ Memory.zeros cap, cell.1 < cap := by
  intro cell hc
  obtain ⟨i, hi, rfl⟩ := List.mem_map.mp hc
  exact List.mem_range.mp hi

/-- The buffer after reset is in canonical form. -/
theorem State.reset_buf_wf : State.reset.block.buf.wf := List.Pairwise.nil

end Sys2Proof.Machine
end

