-- ==== Sys2Proof/Laws/Ops.lean ====
section
/-! SUPPORT. What the shared operations answer: the payload read, the USB write, the configuration lock, the DMA write,
and the environment's responses. -/

namespace Sys2Proof.Machine

/-- A one-word read answers a word exactly where the index is in the buffer and the word has been written. -/
theorem State.readWord_eq_ok {s : State} {i : Nat} {w : Word} :
    s.readWord i = .ok w ↔ i < s.capacity ∧ s.block.buf.read i = some w := by
  unfold State.readWord
  by_cases h : i < s.capacity
  · rw [if_pos h]
    cases s.block.buf.read i <;> simp [h]
  · simp [h]

/-- A payload read answers exactly the words of the buffer in index order (R162). -/
theorem State.payload_eq_ok {s : State} {n : Nat} {ws : List Word} :
    s.payload n = .ok ws ↔ ws.length = n ∧ ∀ i, i < n → i < s.capacity ∧ s.block.buf.read i = ws[i]? := by
  induction n generalizing ws with
  | zero =>
    simp only [State.payload, Except.ok.injEq, Nat.not_lt_zero, false_imp_iff, implies_true, and_true]
    exact ⟨fun h => h ▸ rfl, fun h => (List.length_eq_zero_iff.mp h).symm⟩
  | succ n ih =>
    constructor
    · intro h
      unfold State.payload at h
      cases hp : s.payload n with
      | error f => simp [hp] at h
      | ok vs =>
        cases hw : s.readWord n with
        | error f => simp [hp, hw] at h
        | ok w =>
          simp only [hp, hw, Except.ok.injEq] at h
          obtain ⟨hl, hr⟩ := ih.mp hp
          obtain ⟨hn, hread⟩ := State.readWord_eq_ok.mp hw
          subst h
          refine ⟨by simp [hl], fun i hi => ?_⟩
          by_cases he : i = n
          · subst he
            exact ⟨hn, by rw [hread, List.getElem?_append_right (by omega)]; simp [hl]⟩
          · have hi' : i < n := by omega
            rw [List.getElem?_append_left (by omega)]
            exact hr i hi'
    · rintro ⟨hl, hr⟩
      have hne : ws ≠ [] := by rintro rfl; simp at hl
      have hsplit := List.dropLast_concat_getLast hne
      have hp : s.payload n = .ok ws.dropLast := by
        refine ih.mpr ⟨by simp [hl], fun i hi => ?_⟩
        rw [List.getElem?_dropLast, if_pos (by omega)]
        exact hr i (by omega)
      have hw : s.readWord n = .ok (ws.getLast hne) := by
        refine State.readWord_eq_ok.mpr ⟨(hr n (by omega)).1, ?_⟩
        rw [(hr n (by omega)).2, List.getLast_eq_getElem, List.getElem?_eq_getElem (by omega)]
        simp [hl]
      simp [State.payload, hp, hw, hsplit]

/-- A payload read answers whenever its words lie in the buffer and have been written. -/
theorem State.payload_total {s : State} {n : Nat}
    (h : ∀ i, i < n → i < s.capacity ∧ (s.block.buf.read i).isSome = true) : ∃ ws, s.payload n = .ok ws := by
  induction n with
  | zero => exact ⟨[], rfl⟩
  | succ n ih =>
    obtain ⟨ws, hws⟩ := ih fun i hi => h i (by omega)
    obtain ⟨hn, hs⟩ := h n (by omega)
    obtain ⟨w, hw⟩ := Option.isSome_iff_exists.mp hs
    exact ⟨ws ++ [w], by simp [State.payload, hws, State.readWord_eq_ok.mpr ⟨hn, hw⟩]⟩

/-- The outbound transfer answers exactly when its payload can be read, and then it is one emitted event. -/
theorem State.issueUsbWrite_eq_ok {s t : State} :
    s.issueUsbWrite = .ok t ↔
      ∃ ws, s.payload s.block.count.toNat = .ok ws ∧ t = s.emit (.usbWrite s.block.count.toNat ws) := by
  unfold State.issueUsbWrite
  cases s.payload s.block.count.toNat with
  | error f => simp
  | ok ws => simp [eq_comm]

/-- `outcomeOf` answers next exactly where the computation did. -/
@[simp] theorem outcomeOf_eq_next {r : Except Fault State} {t : State} : outcomeOf r = .next t ↔ r = .ok t := by
  cases r <;> simp [outcomeOf]

/-- `outcomeOf` faults exactly where the computation did. -/
@[simp] theorem outcomeOf_eq_fault {r : Except Fault State} {f : Fault} : outcomeOf r = .fault f ↔ r = .error f := by
  cases r <;> simp [outcomeOf]

/-- The configuration lock in one equation per phase (R41). -/
theorem State.configure_idle {s : State} (h : s.block.idle = true) (b : Block) :
    s.configure b = s.setBlock b := by simp [State.configure, h]

theorem State.configure_locked {s : State} (h : s.block.idle = false) (b : Block) :
    s.configure b = s.raise .cfgLock := by simp [State.configure, h]

/-- The DMA write in one equation per range (R160). -/
theorem State.dmaWrite_inside {s : State} {i : Nat} (h : i < s.capacity) (data : Word) :
    s.dmaWrite i data = s.setBlock { s.block with buf := s.block.buf.write i data } := by
  simp [State.dmaWrite, h]

theorem State.dmaWrite_outside {s : State} {i : Nat} (h : s.capacity ≤ i) (data : Word) :
    s.dmaWrite i data = s.raise .dmaOor := by
  simp [State.dmaWrite, Nat.not_lt.mpr h]

/-! ### The environment's responses touch only what their rules name -/

/-- The DMA engine and the USB agent leave the FIFO and the capture flag (R185, R187). -/
@[simp] theorem Env.armDma_fifo (e : Env) (r : Bool) (n : Nat) : (e.armDma r n).fifo = e.fifo := by
  unfold Env.armDma; split
  · rfl
  · split <;> rfl

@[simp] theorem Env.armDma_pdmEn (e : Env) (r : Bool) (n : Nat) : (e.armDma r n).pdmEn = e.pdmEn := by
  unfold Env.armDma; split
  · rfl
  · split <;> rfl

@[simp] theorem Env.armDma_usbInflight (e : Env) (r : Bool) (n : Nat) :
    (e.armDma r n).usbInflight = e.usbInflight := by
  unfold Env.armDma; split
  · rfl
  · split <;> rfl

@[simp] theorem Env.takeUsb_fifo (e : Env) (a : Bool) (n : Nat) (ws : List Word) :
    (e.takeUsb a n ws).fifo = e.fifo := by
  unfold Env.takeUsb; split <;> rfl

@[simp] theorem Env.takeUsb_pdmEn (e : Env) (a : Bool) (n : Nat) (ws : List Word) :
    (e.takeUsb a n ws).pdmEn = e.pdmEn := by
  unfold Env.takeUsb; split <;> rfl

@[simp] theorem Env.takeUsb_dmaIdx (e : Env) (a : Bool) (n : Nat) (ws : List Word) :
    (e.takeUsb a n ws).dmaIdx = e.dmaIdx := by
  unfold Env.takeUsb; split <;> rfl

@[simp] theorem Env.takeUsb_dmaRem (e : Env) (a : Bool) (n : Nat) (ws : List Word) :
    (e.takeUsb a n ws).dmaRem = e.dmaRem := by
  unfold Env.takeUsb; split <;> rfl

/-- What is in flight after a USB_WRITE: as before, or with the new transfer last (R187). -/
theorem Env.takeUsb_usbInflight (e : Env) (a : Bool) (n : Nat) (ws : List Word) :
    (e.takeUsb a n ws).usbInflight = if a then e.usbInflight ++ [(n, ws)] else e.usbInflight := by
  unfold Env.takeUsb; split <;> rfl

/-- An armed transfer starts at index 0, or the old one goes on (R185). -/
theorem Env.armDma_cases (e : Env) (r : Bool) (n : Nat) :
    ((e.armDma r n).dmaIdx = 0 ∧ (e.armDma r n).dmaRem = n) ∨
      ((e.armDma r n).dmaIdx = e.dmaIdx ∧ (e.armDma r n).dmaRem = e.dmaRem) := by
  unfold Env.armDma
  split
  · exact .inl ⟨rfl, rfl⟩
  · split
    · exact .inl ⟨rfl, rfl⟩
    · exact .inr ⟨rfl, rfl⟩

end Sys2Proof.Machine
end

