-- ==== Sys2Proof/Laws/Controller.lean ====
section
/-! SUPPORT. The controller: the clamp's bounds and what a recount and a re-arm leave. -/

namespace Sys2Proof.Machine

/-- A candidate needs the clamp exactly where it is out of range (R133). -/
theorem clampNeeded_eq_true {cap : Nat} {cand : Int} : clampNeeded cap cand = true ↔ cand < 0 ∨ (cap : Int) < cand := by
  simp [clampNeeded]

theorem clampNeeded_eq_false {cap : Nat} {cand : Int} : clampNeeded cap cand = false ↔ 0 ≤ cand ∧ cand ≤ (cap : Int) := by
  simp [clampNeeded]

/-- An out-of-range candidate is replaced by the nominal size. -/
theorem clampCount_replaced {cap : Nat} {cand : Int} (h : clampNeeded cap cand = true) (n : Half) :
    clampCount cap cand n = n := by
  simp [clampCount, h]

/-- A candidate in range is kept exactly: 16 bits hold it (R138). -/
theorem clampCount_kept {cap : Nat} {cand : Int} (h : clampNeeded cap cand = false) (hc : cap < 65536) (n : Half) :
    ((clampCount cap cand n).toNat : Int) = cand := by
  obtain ⟨h0, h1⟩ := clampNeeded_eq_false.mp h
  rw [clampCount, if_neg (by simp [h]), BitVec.toNat_ofNat, Nat.mod_eq_of_lt (by omega)]
  omega

/-- The capacity fits in 16 bits (R8). -/
theorem State.capacity_lt (s : State) : s.capacity < 65536 := s.params.capacity.isLt

/-- The clamp's result never exceeds the capacity, NOMINAL being legal (R133). -/
theorem clampCount_le {cap : Nat} {n : Half} (hn : n.toNat ≤ cap) (hc : cap < 65536) (cand : Int) :
    (clampCount cap cand n).toNat ≤ cap := by
  cases h : clampNeeded cap cand with
  | true => rwa [clampCount_replaced h]
  | false =>
    have := clampCount_kept h hc n
    have := (clampNeeded_eq_false.mp h).2
    omega

/-! ### The recount -/

theorem State.recount_eq (s : State) :
    s.recount = s.setBlock { s.block with
      count := clampCount s.capacity s.candidate s.block.nominal
      band := s.verdict
      sticky := if clampNeeded s.capacity s.candidate then s.block.sticky.set .clamp else s.block.sticky } := by
  unfold State.recount
  split <;> simp_all [State.raise, State.setBlock]

@[simp] theorem State.recount_params (s : State) : s.recount.params = s.params := by simp [State.recount_eq]

@[simp] theorem State.recount_env (s : State) : s.recount.env = s.env := by simp [State.recount_eq]

@[simp] theorem State.recount_inputs (s : State) : s.recount.inputs = s.inputs := by simp [State.recount_eq]

@[simp] theorem State.recount_readData (s : State) : s.recount.readData = s.readData := by simp [State.recount_eq]

@[simp] theorem State.recount_agenda (s : State) : s.recount.agenda = s.agenda := by simp [State.recount_eq]

@[simp] theorem State.recount_capacity (s : State) : s.recount.capacity = s.capacity := by simp [State.recount_eq]

@[simp] theorem State.recount_block (s : State) : s.recount.block = { s.block with
    count := clampCount s.capacity s.candidate s.block.nominal
    band := s.verdict
    sticky := if clampNeeded s.capacity s.candidate then s.block.sticky.set .clamp else s.block.sticky } := by
  simp [State.recount_eq]

/-! ### The USB write does not move the comparator's operands -/

@[simp] theorem State.fifoLevel_emit_usbWrite (s : State) (n : Nat) (ws : List Word) :
    (s.emit (.usbWrite n ws)).fifoLevel = s.fifoLevel := by
  simp [State.fifoLevel, Env.respond]

@[simp] theorem State.verdict_emit_usbWrite (s : State) (n : Nat) (ws : List Word) :
    (s.emit (.usbWrite n ws)).verdict = s.verdict := by
  simp [State.verdict, State.sampleOccupancy]

@[simp] theorem State.candidate_emit_usbWrite (s : State) (n : Nat) (ws : List Word) :
    (s.emit (.usbWrite n ws)).candidate = s.candidate := by
  simp [State.candidate]

/-! ### The pump (R130) -/

/-- EP_DONE while recording answers exactly when the payload can be read. -/
theorem State.pump_recording {s : State} (h : s.block.recFlag = true) {t : State} :
    s.pump = .ok t ↔ ∃ ws, s.payload s.block.count.toNat = .ok ws ∧
      t = (s.emit (.usbWrite s.block.count.toNat ws)).recount.rearm := by
  unfold State.pump State.pumpUsb State.issueUsbWrite
  rw [if_pos h]
  cases s.payload s.block.count.toNat with
  | error f => simp
  | ok ws => simp [eq_comm]

/-- EP_DONE while not recording always answers. -/
theorem State.pump_not_recording {s : State} (h : s.block.recFlag = false) : s.pump = .ok s.recount.rearm := by
  simp [State.pump, State.pumpUsb, h]

/-- A re-arm that happens is one emitted event. -/
theorem State.rearm_armed {s : State} (h : (s.block.recFlag || s.params.idleRearm) = true) :
    s.rearm = s.emit (.dmaArm s.block.count.toNat) := by
  unfold State.rearm; rw [if_pos h]

theorem State.rearm_quiet {s : State} (h : (s.block.recFlag || s.params.idleRearm) = false) : s.rearm = s := by
  unfold State.rearm; rw [if_neg (by simp [h])]

/-- The start sequence answers exactly when its payload can be read after the zero-fill. -/
theorem State.startSession_eq_ok {s t : State} :
    s.startSession = .ok t ↔ ∃ ws, s.prepareSession.payload s.block.count.toNat = .ok ws ∧
      t = (s.prepareSession.emit (.usbWrite s.block.count.toNat ws)).beginRecording := by
  have hc : s.prepareSession.block.count = s.block.count := rfl
  unfold State.startSession State.issueUsbWrite
  rw [hc]
  cases s.prepareSession.payload s.block.count.toNat with
  | error f => simp
  | ok ws => simp [eq_comm]

/-- The first payload of a session is all zeros (R106). -/
theorem State.payload_prepareSession {s : State} {n : Nat} (h : n ≤ s.capacity) :
    s.prepareSession.payload n = .ok (List.replicate n 0#32) := by
  refine State.payload_eq_ok.mpr ⟨by simp, fun i hi => ⟨Nat.lt_of_lt_of_le hi h, ?_⟩⟩
  have hb : s.prepareSession.block.buf = Memory.zeros s.capacity := rfl
  rw [hb, Memory.read_zeros, if_pos (by omega), List.getElem?_replicate, if_pos hi]

end Sys2Proof.Machine
end

