-- ==== Sys2Proof/Laws/Encoding.lean ====
section
/-! SUPPORT. What the decoder does on an encoded header, and the header fields of encoded host headers. -/

namespace Sys2Proof

/-- Decoding starts with the header. -/
@[simp] theorem decode_halfBytes (h : Half) (rest : List Byte) :
    decode (halfBytes h ++ rest) = decodeHeader h rest := by
  simp [halfBytes, decode]

/-- Decoding a header that stands alone. -/
theorem decode_halfBytes_alone (h : Half) : decode (halfBytes h) = decodeHeader h [] := by
  simpa using decode_halfBytes h []

/-! ### Fields of a host header (R81) -/

theorem headerClass_hostRd (z : Size) (off : Offset) : headerClass (hostHeader 0b00#2 z off) = .hostRd := by
  have c : (hostHeader 0b00#2 z off).extractLsb' 14 2 = 0b00#2 :=
    (extractLsb'_append_above (0b00#2 ++ z.code) off 2 2).trans (extractLsb'_append_high 0b00#2 z.code)
  simp [headerClass, c]

theorem headerClass_hostWr (z : Size) (off : Offset) : headerClass (hostHeader 0b01#2 z off) = .hostWr := by
  have c : (hostHeader 0b01#2 z off).extractLsb' 14 2 = 0b01#2 :=
    (extractLsb'_append_above (0b01#2 ++ z.code) off 2 2).trans (extractLsb'_append_high 0b01#2 z.code)
  simp [headerClass, c]

@[simp] theorem headerSize_hostHeader (cls : BitVec 2) (z : Size) (off : Offset) :
    headerSize (hostHeader cls z off) = z := by
  have c : (hostHeader cls z off).extractLsb' 12 2 = z.code :=
    (extractLsb'_append_above (cls ++ z.code) off 0 2).trans (extractLsb'_append_low cls z.code)
  simp [headerSize, c]

@[simp] theorem headerOffset_hostHeader (cls : BitVec 2) (z : Size) (off : Offset) :
    headerOffset (hostHeader cls z off) = off :=
  extractLsb'_append_low (cls ++ z.code) off

/-! ### Fields of a port header and of a reserved one (R82, R88) -/

theorem headerClass_port (p : BitVec 6) (low : Byte) : headerClass (0b10#2 ++ p ++ low) = .port := by
  have c : (0b10#2 ++ p ++ low).extractLsb' 14 2 = 0b10#2 :=
    (extractLsb'_append_above (0b10#2 ++ p) low 6 2).trans (extractLsb'_append_high 0b10#2 p)
  unfold headerClass
  simp only [c]
  decide

theorem headerPort_port (p : BitVec 6) (low : Byte) : headerPort (0b10#2 ++ p ++ low) = p :=
  (extractLsb'_append_above (0b10#2 ++ p) low 0 6).trans (extractLsb'_append_low 0b10#2 p)

theorem headerLow_port (p : BitVec 6) (low : Byte) : headerLow (0b10#2 ++ p ++ low) = low :=
  extractLsb'_append_low (0b10#2 ++ p) low

theorem headerClass_reserved (r : BitVec 14) : headerClass (0b11#2 ++ r) = .reserved := by
  have c : (0b11#2 ++ r).extractLsb' 14 2 = 0b11#2 := extractLsb'_append_high 0b11#2 r
  unfold headerClass
  simp only [c]
  decide

/-! ### A header put together from its fields -/

theorem headerClass_eq_hostRd {h : Half} : headerClass h = .hostRd ↔ h.extractLsb' 14 2 = 0b00#2 := by
  unfold headerClass; simp only
  generalize h.extractLsb' 14 2 = c
  revert c; decide

theorem headerClass_eq_hostWr {h : Half} : headerClass h = .hostWr ↔ h.extractLsb' 14 2 = 0b01#2 := by
  unfold headerClass; simp only
  generalize h.extractLsb' 14 2 = c
  revert c; decide

theorem headerClass_eq_port {h : Half} : headerClass h = .port ↔ h.extractLsb' 14 2 = 0b10#2 := by
  unfold headerClass; simp only
  generalize h.extractLsb' 14 2 = c
  revert c; decide

theorem headerClass_eq_reserved {h : Half} : headerClass h = .reserved ↔ h.extractLsb' 14 2 = 0b11#2 := by
  unfold headerClass; simp only
  generalize h.extractLsb' 14 2 = c
  revert c; decide

/-- A header is the concatenation of its class, size and offset fields. -/
theorem hostHeader_fields (h : Half) :
    hostHeader (h.extractLsb' 14 2) (headerSize h) (headerOffset h) = h := by
  unfold hostHeader headerSize headerOffset
  rw [Size.code_ofCode]
  apply BitVec.eq_of_getLsbD_eq
  intro i hi
  rw [append_bit, append_bit]
  simp only [BitVec.getLsbD_extractLsb']
  by_cases low : i < 12
  · simp [low]
  · by_cases mid : i - 12 < 2
    · have e : 12 + (i - 12) = i := by omega
      simp [low, mid, e]
    · have e : 14 + (i - 12 - 2) = i := by omega
      have l : i - 12 - 2 < 2 := by omega
      simp [low, mid, e, l]

/-- A header is the concatenation of its class, port and low fields. -/
theorem portHeader_fields (h : Half) : (h.extractLsb' 14 2 ++ headerPort h ++ headerLow h : Half) = h := by
  unfold headerPort headerLow
  apply BitVec.eq_of_getLsbD_eq
  intro i hi
  rw [append_bit, append_bit]
  simp only [BitVec.getLsbD_extractLsb']
  by_cases low : i < 8
  · simp [low]
  · by_cases mid : i - 8 < 6
    · have e : 8 + (i - 8) = i := by omega
      simp [low, mid, e]
    · have e : 14 + (i - 8 - 6) = i := by omega
      have l : i - 8 - 6 < 2 := by omega
      simp [low, mid, e, l]

/-- A header is the concatenation of its class and the rest. -/
theorem reservedHeader_fields (h : Half) : (h.extractLsb' 14 2 ++ h.extractLsb' 0 14 : Half) = h := by
  apply BitVec.eq_of_getLsbD_eq
  intro i hi
  rw [append_bit]
  simp only [BitVec.getLsbD_extractLsb']
  by_cases low : i < 14
  · simp [low]
  · have e : 14 + (i - 14) = i := by omega
    have l : i - 14 < 2 := by omega
    simp [low, e, l]

/-! ### Which offsets name a register (R62, R81, R86) -/

/-- R86's test and the list of R84 agree. -/
theorem namesRegister_eq (z : Size) (off : Offset) : namesRegister z off = registerAccess z off := by
  have low : (off.extractLsb' 0 2 == 0b00#2) = decide (off.toNat % 4 = 0) := by
    rw [Bool.eq_iff_iff]
    simp [← BitVec.toNat_inj]
  have eqn : ∀ k : Nat, k < 4096 → ((off = BitVec.ofNat 12 k) ↔ off.toNat = k) := by
    intro k hk
    rw [← BitVec.toNat_inj, BitVec.toNat_ofNat, Nat.mod_eq_of_lt (by omega)]
  unfold namesRegister registerAccess
  rw [low, Bool.and_assoc]
  congr 1
  rw [Bool.eq_iff_iff]
  simp only [Bool.and_eq_true, decide_eq_true_eq, List.contains_iff_mem, List.mem_cons, List.not_mem_nil, or_false]
  have e := fun k hk => eqn k hk
  rw [show (0x000 : Offset) = BitVec.ofNat 12 0 from rfl, show (0x004 : Offset) = BitVec.ofNat 12 4 from rfl,
    show (0x008 : Offset) = BitVec.ofNat 12 8 from rfl, show (0x00C : Offset) = BitVec.ofNat 12 12 from rfl,
    show (0x010 : Offset) = BitVec.ofNat 12 16 from rfl, show (0x014 : Offset) = BitVec.ofNat 12 20 from rfl,
    show (0x018 : Offset) = BitVec.ofNat 12 24 from rfl, show (0x01C : Offset) = BitVec.ofNat 12 28 from rfl,
    e 0 (by omega), e 4 (by omega), e 8 (by omega), e 12 (by omega), e 16 (by omega), e 20 (by omega),
    e 24 (by omega), e 28 (by omega)]
  omega

/-- R62's wording of the same test. -/
theorem namesRegister_iff {z : Size} {off : Offset} :
    namesRegister z off = true ↔ z = .word ∧ off.toNat % 4 = 0 ∧ off.toNat ≤ 0x01C := by
  simp only [namesRegister, Bool.and_eq_true, beq_iff_eq, decide_eq_true_eq, and_assoc]
  rw [← BitVec.toNat_inj]
  simp

/-- The offset of a register names it. -/
@[simp] theorem Reg.ofOffset_offset (r : Reg) : Reg.ofOffset r.offset = r := by
  cases r <;> rfl

/-- A word access to a register's offset names a register. -/
@[simp] theorem namesRegister_offset (r : Reg) : namesRegister .word r.offset = true := by
  cases r <;> rfl

/-- An access that names a register is a word access to that register's offset. -/
theorem eq_offset_of_namesRegister {z : Size} {off : Offset} (h : namesRegister z off = true) :
    z = .word ∧ off = (Reg.ofOffset off).offset := by
  rw [namesRegister_eq] at h
  simp only [registerAccess, Bool.and_eq_true, beq_iff_eq, List.contains_iff_mem, List.mem_cons,
    List.not_mem_nil, or_false] at h
  obtain ⟨hz, h | h | h | h | h | h | h | h⟩ := h <;> subst h <;> exact ⟨hz, rfl⟩

/-- The command words (R85): CMD_RSVD is every word from 4 up. -/
theorem commandOf_reserved {d : Word} (h : 4 ≤ d.toNat) : commandOf d = .cmdRsvd d := by
  unfold commandOf
  rw [if_pos]
  by_cases hz : d.extractLsb' 4 28 = 0
  · right
    have hi : (d.extractLsb' 4 28).toNat = 0 := by rw [hz]; rfl
    simp only [BitVec.extractLsb'_toNat, Nat.shiftRight_eq_div_pow] at hi ⊢
    have := d.isLt
    omega
  · exact .inl hz

/-- A command word that is not CMD_RSVD is one of the four named ones. -/
theorem commandOf_named {d : Word} (h : d.toNat < 4) :
    d = 0#32 ∧ commandOf d = .cmdNop ∨ d = 1#32 ∧ commandOf d = .cmdEnable ∨
      d = 2#32 ∧ commandOf d = .cmdDisable ∨ d = 3#32 ∧ commandOf d = .cmdService := by
  have e : ∀ k : Nat, k < 4 → d.toNat = k → d = BitVec.ofNat 32 k := by
    intro k hk hd
    apply BitVec.eq_of_toNat_eq
    rw [BitVec.toNat_ofNat, Nat.mod_eq_of_lt (by omega), hd]
  obtain h0 | h0 | h0 | h0 : d.toNat = 0 ∨ d.toNat = 1 ∨ d.toNat = 2 ∨ d.toNat = 3 := by omega
  · exact .inl ⟨e 0 (by omega) h0, by rw [e 0 (by omega) h0]; decide⟩
  · exact .inr (.inl ⟨e 1 (by omega) h0, by rw [e 1 (by omega) h0]; decide⟩)
  · exact .inr (.inr (.inl ⟨e 2 (by omega) h0, by rw [e 2 (by omega) h0]; decide⟩))
  · exact .inr (.inr (.inr ⟨e 3 (by omega) h0, by rw [e 3 (by omega) h0]; decide⟩))

/-! ### Decoding the parts an encoding has -/

/-- A port header. -/
theorem decodeHeader_port {h : Half} (c : headerClass h = .port) (rest : List Byte) :
    decodeHeader h rest = decodePort h rest := by
  unfold decodeHeader; rw [c]

/-- A header of the reserved class. -/
theorem decodeHeader_reserved {h : Half} (c : headerClass h = .reserved) (rest : List Byte) :
    decodeHeader h rest = .ok (.rsvdClass (h.extractLsb' 0 14), rest) := by
  unfold decodeHeader; rw [c]

/-- A register read's header. -/
theorem decodeHeader_read (r : Reg) (rest : List Byte) :
    decodeHeader (hostHeader 0b00#2 .word r.offset) rest = .ok (readOf r, rest) := by
  simp [decodeHeader, headerClass_hostRd, decodeRead]

/-- A register write's header and data. -/
theorem decodeHeader_write (r : Reg) (d : Word) (rest : List Byte) :
    decodeHeader (hostHeader 0b01#2 .word r.offset) (wordBytes d ++ rest) = .ok (writeOf r d, rest) := by
  simp [decodeHeader, headerClass_hostWr, decodeWrite, wordBytes]

/-- A transaction of a register write. -/
theorem decode_write (r : Reg) (d : Word) (rest : List Byte) :
    decode (halfBytes (hostHeader 0b01#2 .word r.offset) ++ wordBytes d ++ rest) = .ok (writeOf r d, rest) := by
  rw [List.append_assoc, decode_halfBytes, decodeHeader_write]

/-- A transaction of a register read. -/
theorem decode_read (r : Reg) (rest : List Byte) :
    decode (halfBytes (hostHeader 0b00#2 .word r.offset) ++ rest) = .ok (readOf r, rest) := by
  rw [decode_halfBytes, decodeHeader_read]

/-- The encoding of a register read and of a register write. -/
theorem encode_readOf (r : Reg) : encode (readOf r) = halfBytes (hostHeader 0b00#2 .word r.offset) := by
  cases r <;> rfl

theorem encode_writeOf (r : Reg) (d : Word) :
    encode (writeOf r d) = halfBytes (hostHeader 0b01#2 .word r.offset) ++ wordBytes d := by
  cases r
  case cmd =>
    by_cases h : 4 ≤ d.toNat
    · rw [writeOf, commandOf_reserved h]; rfl
    · rcases commandOf_named (d := d) (by omega) with ⟨e, c⟩ | ⟨e, c⟩ | ⟨e, c⟩ | ⟨e, c⟩ <;>
        rw [writeOf, c, e] <;> rfl
  all_goals rfl

/-- Register reads and writes are well formed. -/
theorem wf_readOf (r : Reg) : (readOf r).wf = true := by cases r <;> rfl

theorem wf_writeOf (r : Reg) (d : Word) : (writeOf r d).wf = true := by
  cases r
  case cmd =>
    by_cases h : 4 ≤ d.toNat
    · rw [writeOf, commandOf_reserved h]; simp [Instr.wf, h]
    · rcases commandOf_named (d := d) (by omega) with ⟨e, c⟩ | ⟨e, c⟩ | ⟨e, c⟩ | ⟨e, c⟩ <;> rw [writeOf, c] <;> rfl
  all_goals rfl

/-- A register access alone decodes whole. -/
theorem decode_spellAccess_read (r : Reg) : decode (spellAccess .word r.offset none) = .ok (readOf r, []) := by
  simpa [spellAccess] using decode_read r []

theorem decode_spellAccess_write (r : Reg) (d : Word) :
    decode (spellAccess .word r.offset (some d)) = .ok (writeOf r d, []) := by
  simpa [spellAccess] using decode_write r d []

end Sys2Proof
end

