-- ==== Sys2Proof/Laws/PerInstr.lean ====
section
/-! SUPPORT. The families of statements made per operation: RoundTrip, decoding an encoded operation gives it back. -/

namespace Sys2Proof.Laws.RoundTrip

/-- Decoding the transaction of a well-formed operation gives the operation and leaves the bytes after it. -/
def Statement (i : Instr) : Prop :=
  i.wf = true → ∀ rest, decode (encode i ++ rest) = .ok (i, rest)

theorem rdCmd : Statement .rdCmd := fun _ rest => decode_read .cmd rest

theorem rdStatus : Statement .rdStatus := fun _ rest => decode_read .status rest

theorem rdNominal : Statement .rdNominal := fun _ rest => decode_read .nominal rest

theorem rdStep : Statement .rdStep := fun _ rest => decode_read .step rest

theorem rdTrig : Statement .rdTrig := fun _ rest => decode_read .trig rest

theorem rdCount : Statement .rdCount := fun _ rest => decode_read .count rest

theorem rdLevel : Statement .rdLevel := fun _ rest => decode_read .level rest

theorem rdCapacity : Statement .rdCapacity := fun _ rest => decode_read .capacity rest

theorem cmdNop : Statement .cmdNop := fun _ rest => decode_write .cmd 0#32 rest

theorem cmdEnable : Statement .cmdEnable := fun _ rest => decode_write .cmd 1#32 rest

theorem cmdDisable : Statement .cmdDisable := fun _ rest => decode_write .cmd 2#32 rest

theorem cmdService : Statement .cmdService := fun _ rest => decode_write .cmd 3#32 rest

theorem cmdRsvd (d : Word) : Statement (.cmdRsvd d) := fun h rest =>
  (decode_write .cmd d rest).trans (by rw [writeOf, commandOf_reserved (of_decide_eq_true h)])

theorem wrStatus (d : Word) : Statement (.wrStatus d) := fun _ rest => decode_write .status d rest

theorem wrNominal (d : Word) : Statement (.wrNominal d) := fun _ rest => decode_write .nominal d rest

theorem wrStep (d : Word) : Statement (.wrStep d) := fun _ rest => decode_write .step d rest

theorem wrTrig (d : Word) : Statement (.wrTrig d) := fun _ rest => decode_write .trig d rest

theorem wrCount (d : Word) : Statement (.wrCount d) := fun _ rest => decode_write .count d rest

theorem wrLevel (d : Word) : Statement (.wrLevel d) := fun _ rest => decode_write .level d rest

theorem wrCapacity (d : Word) : Statement (.wrCapacity d) := fun _ rest => decode_write .capacity d rest

theorem busErrRd (z : Size) (off : Offset) : Statement (.busErrRd z off) := by
  intro h rest
  have hn : namesRegister z off = false := by simpa [Instr.wf, namesRegister_eq] using h
  simp [encode, decodeHeader, headerClass_hostRd, decodeRead, hn]

theorem busErrWr (z : Size) (off : Offset) (d : Word) : Statement (.busErrWr z off d) := by
  intro h rest
  have hn : namesRegister z off = false := by simpa [Instr.wf, namesRegister_eq] using h
  simp [encode, decodeHeader, headerClass_hostWr, decodeWrite, hn, wordBytes]

theorem epDone (err : Byte) : Statement (.epDone err) := fun _ _ => rfl

theorem dmaWr (idx : Half) (data : Word) : Statement (.dmaWr idx data) := by
  intro _ rest
  have low : headerLow 0x8100#16 = 0 := by decide
  have port : headerPort 0x8100#16 = 0x01#6 := by decide
  rw [encode, List.append_assoc, decode_halfBytes, decodeHeader_port (by decide)]
  simp [decodePort, low, port, wordBytes, halfBytes]

theorem rsvdPort (port : BitVec 6) (low : Byte) : Statement (.rsvdPort port low) := by
  intro h rest
  rw [encode, decode_halfBytes, decodeHeader_port (headerClass_port port low)]
  simp only [decodePort, headerPort_port, headerLow_port]
  by_cases hl : low = 0
  · have hp : 2 ≤ port.toNat := by simpa [Instr.wf, hl] using h
    have h0 : port ≠ 0x00#6 := by rintro rfl; simp at hp
    have h1 : port ≠ 0x01#6 := by rintro rfl; simp at hp
    simp [hl, h0, h1]
  · rw [if_pos hl]

theorem rsvdClass (r : BitVec 14) : Statement (.rsvdClass r) := by
  intro _ rest
  rw [encode, decode_halfBytes, decodeHeader_reserved (headerClass_reserved r), extractLsb'_append_low 0b11#2 r]

end Sys2Proof.Laws.RoundTrip
end

