-- ==== Sys2Proof/Laws/Step.lean ====
section
/-! SUPPORT. What one step can do, said once: the inversion of the step and of each entry, and the equations of the
operations that may fault. -/

namespace Sys2Proof.Machine

/-- A step waits, or takes the next entry. -/
theorem step_next_cases {s t : State} (h : step s = .next t) :
    (s.agenda = [] ∧ t = s) ∨
      ∃ e more, s.agenda = e :: more ∧ (s.beginEntry more).runEntry e = .next t := by
  unfold step State.runNext at h
  cases ha : s.agenda with
  | nil => rw [ha] at h; cases h; exact .inl ⟨rfl, rfl⟩
  | cons e more => rw [ha] at h; exact .inr ⟨e, more, rfl, h⟩

/-- A step with an entry presented is that entry's effect. -/
theorem step_cons {s : State} {e : Stimulus} {more : List Stimulus} (h : s.agenda = e :: more) :
    step s = (s.beginEntry more).runEntry e := by
  unfold step State.runNext; rw [h]

/-- A presented transaction whose bytes decode whole is its operation's effect. -/
theorem State.runTransaction_of_decode {s : State} {bytes : List Byte} {i : Instr} (h : decode bytes = .ok (i, [])) :
    s.runTransaction bytes = exec i s := by
  unfold State.runTransaction; rw [h]

/-- A transaction that answers next was decoded whole and run. -/
theorem State.runTransaction_next {s t : State} {bytes : List Byte} (h : s.runTransaction bytes = .next t) :
    ∃ i, decode bytes = .ok (i, []) ∧ exec i s = .next t := by
  unfold State.runTransaction at h
  split at h
  · cases h
  · exact ⟨_, ‹_›, h⟩
  · cases h

/-- A transaction that faults was decoded whole and run. -/
theorem State.runTransaction_fault {s : State} {f : Fault} {bytes : List Byte}
    (h : s.runTransaction bytes = .fault f) : ∃ i, decode bytes = .ok (i, []) ∧ exec i s = .fault f := by
  unfold State.runTransaction at h
  split at h
  · cases h
  · exact ⟨_, ‹_›, h⟩
  · cases h

/-- Everything an entry can do when it answers next. -/
theorem State.runEntry_next {s t : State} {e : Stimulus} (h : s.runEntry e = .next t) :
    (∃ inp bytes i, (e = .txn inp bytes ∨ ∃ a z d off, e = .bus inp a z d ∧
        s.params.offsetOf a = some off ∧ bytes = spellAccess z off d) ∧
      decode bytes = .ok (i, []) ∧ exec i (s.present inp) = .next t) ∨
    (∃ inp a z d, e = .bus inp a z d ∧ t = s.present inp) ∨
    (∃ w, e = .pdmPush w ∧ s.env.pdmEn = true ∧ t = s.setEnv (s.env.push s.params.fifoDepth.toNat w)) ∨
    (∃ w ws, e = .dmaBeat ∧ s.env.fifo = w :: ws ∧ s.env.dmaRem ≠ 0 ∧
      t = (s.setEnv s.env.beat).dmaWrite s.env.dmaIdx w) ∨
    (∃ a r err x xs, e = .usbDone a r err ∧ s.env.usbInflight = x :: xs ∧
      exec (.epDone err) ((s.present (Inputs.mk none a r)).setEnv s.env.completeUsb) = .next t) ∨
    (∃ c, e = .rst c ∧ t = s.applyReset c) := by
  cases e with
  | txn inp bytes =>
    obtain ⟨i, hd, he⟩ := State.runTransaction_next h
    exact .inl ⟨inp, bytes, i, .inl rfl, hd, he⟩
  | bus inp a z d =>
    simp only [State.runEntry, State.runBusAccess] at h
    split at h
    · obtain ⟨i, hd, he⟩ := State.runTransaction_next h
      exact .inl ⟨inp, _, i, .inr ⟨a, z, d, _, rfl, ‹_›, rfl⟩, hd, he⟩
    · cases h; exact .inr (.inl ⟨inp, a, z, d, rfl, rfl⟩)
  | pdmPush w =>
    simp only [State.runEntry, State.pdmStep] at h
    split at h
    · cases h; exact .inr (.inr (.inl ⟨w, rfl, ‹_›, rfl⟩))
    · cases h
  | dmaBeat =>
    simp only [State.runEntry, State.dmaStep] at h
    split at h
    · cases h
    · rename_i w ws hf
      split at h
      · cases h
      · cases h; exact .inr (.inr (.inr (.inl ⟨w, ws, rfl, hf, ‹_›, rfl⟩)))
  | usbDone a r err =>
    simp only [State.runEntry, State.usbStep] at h
    split at h
    · cases h
    · rename_i x xs hu
      exact .inr (.inr (.inr (.inr (.inl ⟨a, r, err, x, xs, rfl, hu, h⟩))))
  | rst c => cases h; exact .inr (.inr (.inr (.inr (.inr ⟨c, rfl, rfl⟩))))

/-! ### The two operations that read the buffer -/

/-- CMD_SERVICE with a request pending. -/
theorem exec_service_pending {s t : State} (h : s.block.sr = true) :
    exec .cmdService s = .next t ↔ ∃ ws, s.prepareSession.payload s.block.count.toNat = .ok ws ∧
      t = (s.prepareSession.emit (.usbWrite s.block.count.toNat ws)).beginRecording := by
  rw [exec, execCmdService, if_pos h, outcomeOf_eq_next, State.startSession_eq_ok]

/-- CMD_SERVICE without a request. -/
theorem exec_service_idle {s : State} (h : s.block.sr = false) : exec .cmdService s = .next s := by
  rw [exec, execCmdService, if_neg (by simp [h])]

/-- EP_DONE while recording. -/
theorem exec_epDone_recording {s t : State} (h : s.block.recFlag = true) (err : Byte) :
    exec (.epDone err) s = .next t ↔ ∃ ws, s.payload s.block.count.toNat = .ok ws ∧
      t = (s.emit (.usbWrite s.block.count.toNat ws)).recount.rearm := by
  rw [exec, execEpDone, outcomeOf_eq_next, State.pump_recording h]

/-- EP_DONE while not recording. -/
theorem exec_epDone_not_recording {s : State} (h : s.block.recFlag = false) (err : Byte) :
    exec (.epDone err) s = .next s.recount.rearm := by
  rw [exec, execEpDone, State.pump_not_recording h, outcomeOf]

/-- EP_DONE in either case: the recount and the re-arm of the state after the USB write, if any. -/
theorem exec_epDone_next {s t : State} {err : Byte} (h : exec (.epDone err) s = .next t) :
    ∃ u, t = u.recount.rearm ∧ (u = s ∧ s.block.recFlag = false ∨ s.block.recFlag = true ∧
      ∃ ws, s.payload s.block.count.toNat = .ok ws ∧ u = s.emit (.usbWrite s.block.count.toNat ws)) := by
  cases hr : s.block.recFlag with
  | true =>
    obtain ⟨ws, hw, ht⟩ := (exec_epDone_recording hr err).mp h
    exact ⟨_, ht, .inr ⟨rfl, ws, hw, rfl⟩⟩
  | false =>
    rw [exec_epDone_not_recording hr] at h
    cases h
    exact ⟨s, rfl, .inl ⟨rfl, rfl⟩⟩

/-- Only CMD_SERVICE and EP_DONE can fault. -/
theorem exec_fault {i : Instr} {s : State} {f : Fault} (h : exec i s = .fault f) :
    (i = .cmdService ∧ s.block.sr = true ∧ s.startSession = .error f) ∨
      (∃ err, i = .epDone err ∧ s.block.recFlag = true ∧ s.payload s.block.count.toNat = .error f) := by
  cases i with
  | cmdService =>
    simp only [exec, execCmdService] at h
    split at h
    · exact .inl ⟨rfl, ‹_›, outcomeOf_eq_fault.mp h⟩
    · cases h
  | epDone err =>
    refine .inr ⟨err, rfl, ?_⟩
    simp only [exec, execEpDone, outcomeOf_eq_fault] at h
    cases hr : s.block.recFlag with
    | false => rw [State.pump_not_recording hr] at h; cases h
    | true =>
      refine ⟨rfl, ?_⟩
      simp only [State.pump, State.pumpUsb, hr, if_true, State.issueUsbWrite] at h
      cases hp : s.payload s.block.count.toNat with
      | error g => simpa [hp] using h
      | ok ws => simp [hp] at h
  | _ => cases h

/-- A re-arm changes the output log and the environment only. -/
theorem State.rearm_cases (s : State) :
    s.rearm = s.emit (.dmaArm s.block.count.toNat) ∨ s.rearm = s := by
  unfold State.rearm; split
  · exact .inl rfl
  · exact .inr rfl

/-! ### What the operations leave, each in one equation -/

/-- A re-arm leaves the block but for the log. -/
theorem State.rearm_frame (s : State) : s.rearm = { s with
    block := { s.block with out := s.rearm.block.out }
    env := s.rearm.env } := by
  rcases State.rearm_cases s with h | h
  · rw [h]; rfl
  · rw [h]

/-- EP_DONE: COUNT, BAND and CLAMP from the recount, the log and the environment, and nothing else (R130). -/
theorem exec_epDone_frame {s t : State} {err : Byte} (h : exec (.epDone err) s = .next t) : t = { s with
    block := { s.block with
      count := clampCount s.capacity s.candidate s.block.nominal
      band := s.verdict
      sticky := if clampNeeded s.capacity s.candidate then s.block.sticky.set .clamp else s.block.sticky
      out := t.block.out }
    env := t.env } := by
  obtain ⟨u, rfl, hu⟩ := exec_epDone_next h
  obtain ⟨rfl, -⟩ | ⟨-, ws, -, rfl⟩ := hu
  · rw [State.rearm_frame, State.recount_eq]; rfl
  · rw [State.rearm_frame, State.recount_eq, State.verdict_emit_usbWrite, State.candidate_emit_usbWrite]
    rfl

/-- A started session: SR, REC, the buffer, the log and the environment, and nothing else (R106). -/
theorem exec_service_frame {s t : State} (hs : s.block.sr = true) (h : exec .cmdService s = .next t) : t = { s with
    block := { s.block with sr := false, recFlag := true, buf := Memory.zeros s.capacity, out := t.block.out }
    env := t.env } := by
  obtain ⟨ws, -, rfl⟩ := (exec_service_pending hs).mp h
  rfl

/-- The configuration lock either accepts or raises CFG_LOCK (R41). -/
theorem State.configure_cases (s : State) (b : Block) :
    (s.block.idle = true ∧ s.configure b = s.setBlock b) ∨ (s.block.idle = false ∧ s.configure b = s.raise .cfgLock) := by
  cases h : s.block.idle with
  | true => exact .inl ⟨rfl, State.configure_idle h b⟩
  | false => exact .inr ⟨rfl, State.configure_locked h b⟩

/-- A DMA write either writes or raises DMA_OOR (R160). -/
theorem State.dmaWrite_cases (s : State) (i : Nat) (w : Word) :
    (i < s.capacity ∧ s.dmaWrite i w = s.setBlock { s.block with buf := s.block.buf.write i w }) ∨
      (s.capacity ≤ i ∧ s.dmaWrite i w = s.raise .dmaOor) := by
  by_cases h : i < s.capacity
  · exact .inl ⟨h, State.dmaWrite_inside h w⟩
  · exact .inr ⟨Nat.le_of_not_lt h, State.dmaWrite_outside (Nat.le_of_not_lt h) w⟩

/-- A payload depends on the capacity and the buffer only. -/
theorem State.payload_congr {s s' : State} (hc : s'.capacity = s.capacity) (hb : s'.block.buf = s.block.buf) (n : Nat) :
    s'.payload n = s.payload n := by
  induction n with
  | zero => rfl
  | succ n ih => simp only [State.payload, ih, State.readWord, hc, hb]

end Sys2Proof.Machine
end

