-- ==== Sys2Proof/Laws/Run.lean ====
section
/-! SUPPORT. Runs of several steps: the equation of one more step, and the host's run of the machine. -/

namespace Sys2Proof.Machine

/-- One more step at the front of a run. -/
theorem runSteps_succ (k : Nat) (s : State) : runSteps (k + 1) s =
    match step s with
    | .next t => runSteps k t
    | .fault f => .fault f
    | .refused r => .refused r := rfl

/-- A run of one more step that answers next went through a next state. -/
theorem runSteps_succ_next {k : Nat} {s u : State} (h : runSteps (k + 1) s = .next u) :
    ∃ t, step s = .next t ∧ runSteps k t = .next u := by
  rw [runSteps_succ] at h
  cases hs : step s with
  | next t => rw [hs] at h; exact ⟨t, rfl, h⟩
  | fault f => rw [hs] at h; cases h
  | refused r => rw [hs] at h; cases h

/-- What every step keeps, every run keeps. -/
theorem runSteps_keeps {P : State → Prop} (hP : ∀ s t, P s → step s = .next t → P t) {k : Nat} {s t : State}
    (h : P s) (hr : runSteps k s = .next t) : P t := by
  induction k generalizing s with
  | zero => cases hr; exact h
  | succ k ih =>
    obtain ⟨u, hu, hr⟩ := runSteps_succ_next hr
    exact ih (hP s u h hu) hr

/-- A byte list that decodes whole spells its operation. -/
theorem operationOf_of_decode {bytes : List Byte} {i : Instr} (h : decode bytes = .ok (i, [])) :
    operationOf bytes = some i := by
  unfold operationOf; rw [h]

/-- The operation that a transaction or a bus access runs is the one its entry presents. -/
theorem Stimulus.operation_of_decode {p : Params} {e : Stimulus} {inp : Inputs} {bytes : List Byte} {i : Instr}
    (he : e = .txn inp bytes ∨ ∃ a z d off, e = .bus inp a z d ∧ p.offsetOf a = some off ∧ bytes = spellAccess z off d)
    (h : decode bytes = .ok (i, [])) : e.operation p = some i := by
  rcases he with rfl | ⟨a, z, d, off, rfl, ho, rfl⟩
  · exact operationOf_of_decode h
  · simp only [Stimulus.operation, ho]
    exact operationOf_of_decode h

/-- Operations one after another: the first, then the rest. -/
theorem runOps_cons {i : Instr} {s t : State} (h : exec i s = .next t) (more : List Instr) :
    runOps (i :: more) s = runOps more t := by
  simp only [runOps, h]

/-- CMD_ENABLE while not recording, in one equation (R104). -/
theorem exec_enable {s : State} (h : s.block.recFlag = false) :
    exec .cmdEnable s = .next (s.setBlock { s.block with sr := true }) := by
  simp [exec, execCmdEnable, h]

/-- CMD_DISABLE while not recording, in one equation (R105). -/
theorem exec_disable {s : State} (h : s.block.recFlag = false) :
    exec .cmdDisable s = .next (s.setBlock { s.block with sr := false }) := by
  simp [exec, execCmdDisable, h]

/-- While recording, an operation that is no EP_DONE and no DISABLE, and no SERVICE that finds a start request, leaves the
recording, SR, COUNT, the log, the entries to come and the parameters. -/
theorem exec_keeps_cycle {i : Instr} {s t : State} (hr : s.block.recFlag = true) (hd : ∀ err, i ≠ .epDone err)
    (hs : i ≠ .cmdDisable) (hv : s.block.sr = true → i ≠ .cmdService) (h : exec i s = .next t) :
    t.block.recFlag = true ∧ t.block.sr = s.block.sr ∧ t.block.count = s.block.count ∧ t.block.out = s.block.out ∧
      t.agenda = s.agenda ∧ t.params = s.params := by
  have hi : s.block.idle = false := by simp [Block.idle, hr]
  cases i with
  | epDone err => exact absurd rfl (hd err)
  | cmdDisable => exact absurd rfl hs
  | cmdService =>
    have hsr : s.block.sr = false := Bool.eq_false_iff.mpr fun e => hv e rfl
    rw [exec_service_idle hsr] at h; cases h; simp [hr]
  | cmdEnable => simp only [exec, execCmdEnable, if_pos hr] at h; cases h; simp [hr]
  | wrNominal d => simp only [exec, execWrNominal, State.configure_locked hi] at h; cases h; simp [hr]
  | wrStep d => simp only [exec, execWrStep, State.configure_locked hi] at h; cases h; simp [hr]
  | wrTrig d => simp only [exec, execWrTrig, State.configure_locked hi] at h; cases h; simp [hr]
  | dmaWr idx d =>
    cases h
    rcases State.dmaWrite_cases s (indexOf idx) d with ⟨-, e⟩ | ⟨-, e⟩ <;> rw [e] <;> simp [hr]
  | rsvdPort => cases h
  | rsvdClass => cases h
  | _ => cases h; simp [hr]

/-- The host's run, one step at the front, on any machine. -/
theorem core_run_succ (M : Host.Core) (k : Nat) (s : M.State) : M.run (k + 1) s =
    match M.step s with
    | .next t => M.run k t
    | .fault f => .fault f
    | .refused r => .refused r := rfl

/-- The host's run of this machine is `runSteps`. -/
theorem core_run_eq_runSteps (k : Nat) (s : State) : Sys2Proof.core.run k s = runSteps k s := by
  induction k generalizing s with
  | zero => rfl
  | succ k ih =>
    have front := core_run_succ Sys2Proof.core k s
    have hstep : Sys2Proof.core.step s = step s := rfl
    rw [runSteps_succ]
    cases h : step s with
    | next t =>
      have h' : Sys2Proof.core.step s = .next t := hstep.trans h
      rw [h'] at front
      exact front.trans (ih t)
    | fault f =>
      have h' : Sys2Proof.core.step s = .fault f := hstep.trans h
      rw [h'] at front
      exact front
    | refused r =>
      have h' : Sys2Proof.core.step s = .refused r := hstep.trans h
      rw [h'] at front
      exact front

end Sys2Proof.Machine
end

