-- ==== Sys2Proof/Tests/Slice0.lean ====
section
/-! SUPPORT. Tests of the model. Every expected value is the spec's: the encoding rules of 30_encoding and the vectors of
95_test_vectors (named V, E, H, B and Program there), or computed by hand from the rule a theorem names. The witness
theorems at the end show, for every statement with hypotheses, a concrete instance that meets them. -/

namespace Sys2Proof.Tests

open Sys2Proof Sys2Proof.Machine

/-! ### Small states -/

/-- The defaults of R8 with TRIG 64 (the precondition of the vectors of 95_test_vectors), a FIFO of 8 and a window at
0x1000. -/
def vectorParams : Params where
  capacity := 52
  nominalReset := 48
  stepReset := 4
  trigReset := 64
  fifoDepth := 8
  idleRearm := true
  base := 0x1000

/-- A small machine: three words, NOMINAL 2, STEP 1, TRIG 4. -/
def smallParams : Params where
  capacity := 3
  nominalReset := 2
  stepReset := 1
  trigReset := 4
  fifoDepth := 2
  idleRearm := true
  base := 0x1000

/-- Inputs with a driven level. -/
def level (n : Half) : Inputs := ⟨some n, true, false⟩

/-- The start state of the vectors. -/
def boot : State := (State.resetWith vectorParams).present (level 0)

/-- The small machine after reset, the reference FIFO driving the level. -/
def small : State := (State.resetWith smallParams).present ⟨none, true, false⟩

/-- The small machine with a start request. -/
def starting : State := small.setBlock { small.block with sr := true }

/-- The small machine recording with COUNT 3 and the words a, b, c (B6), capture enabled and one sample queued. -/
def live : State where
  params := smallParams
  block := { Block.reset smallParams with
    recFlag := true, count := 3, buf := [(0, 0xA), (1, 0xB), (2, 0xC)] }
  env := { Env.reset with fifo := [0x11], pdmEn := true, dmaRem := 2, usbInflight := [(1, [0x7])] }
  inputs := ⟨none, true, false⟩
  readData := none
  agenda := []

/-- A state with all sticky bits set. -/
def flagged (s : State) : State := s.setBlock { s.block with sticky := ⟨true, true, true, true, true⟩ }

/-- The next state, if the outcome is one. -/
def after : Host.Outcome State Fault Refusal → Option State
  | .next s => some s
  | .fault _ => none
  | .refused _ => none

/-- A view of the next state. -/
def view {α : Type} (f : State → α) (o : Host.Outcome State Fault Refusal) : Option α := (after o).map f

/-- BAND, COUNT and CLAMP after one EP_DONE with the given N, S, T, CAP and level (the columns of V1 to V23). -/
def vector (n s t cap occ : Half) : Option (Band × Half × Bool) :=
  let st := (State.resetWith { vectorParams with capacity := cap }).present (level occ)
  view (fun u => (u.block.band, u.block.count, u.block.sticky.clamp))
    (exec (.epDone 0) (st.setBlock { st.block with nominal := n, stepReg := s, trig := t }))

/-! ### WellFormed refuses -/

/-- R85: the words 0 to 3 are commands of their own. -/
theorem test_wf_refuses_named_command : (Instr.cmdRsvd 3).wf = false := by decide

/-- R81: 0x01C is mapped. -/
theorem test_wf_refuses_mapped_read : (Instr.busErrRd .word 0x01C).wf = false := by decide

theorem test_wf_refuses_mapped_write : (Instr.busErrWr .word 0x000 1).wf = false := by decide

/-- R82: ports 0 and 1 with a zero low byte are the two events. -/
theorem test_wf_refuses_event_port : (Instr.rsvdPort 1 0).wf = false := by decide

/-! ### Decoding, words written out from R80 to R85 -/

theorem test_decode_reads :
    Spells [0x20, 0x00] .rdCmd ∧ Spells [0x20, 0x04] .rdStatus ∧ Spells [0x20, 0x08] .rdNominal ∧
    Spells [0x20, 0x0C] .rdStep ∧ Spells [0x20, 0x10] .rdTrig ∧ Spells [0x20, 0x14] .rdCount ∧
    Spells [0x20, 0x18] .rdLevel ∧ Spells [0x20, 0x1C] .rdCapacity :=
  ⟨rfl, rfl, rfl, rfl, rfl, rfl, rfl, rfl⟩

theorem test_decode_commands :
    Spells [0x60, 0x00, 0x00, 0x00, 0x00, 0x00] .cmdNop ∧ Spells [0x60, 0x00, 0x00, 0x00, 0x00, 0x01] .cmdEnable ∧
    Spells [0x60, 0x00, 0x00, 0x00, 0x00, 0x02] .cmdDisable ∧ Spells [0x60, 0x00, 0x00, 0x00, 0x00, 0x03] .cmdService ∧
    Spells [0x60, 0x00, 0x00, 0x00, 0x00, 0x04] (.cmdRsvd 4) ∧
    Spells [0x60, 0x00, 0x10, 0x00, 0x00, 0x03] (.cmdRsvd 0x10000003) :=
  ⟨rfl, rfl, rfl, rfl, rfl, rfl⟩

theorem test_decode_writes :
    Spells [0x60, 0x04, 0x00, 0x00, 0x1F, 0x00] (.wrStatus 0x1F00) ∧
    Spells [0x60, 0x08, 0x00, 0x01, 0x00, 0x30] (.wrNominal 0x00010030) ∧
    Spells [0x60, 0x0C, 0x00, 0x00, 0xFF, 0xFF] (.wrStep 0xFFFF) ∧
    Spells [0x60, 0x10, 0x00, 0x00, 0x00, 0x40] (.wrTrig 0x40) ∧
    Spells [0x60, 0x14, 0x00, 0x00, 0x00, 0x00] (.wrCount 0) ∧
    Spells [0x60, 0x18, 0x00, 0x00, 0x00, 0x00] (.wrLevel 0) ∧
    Spells [0x60, 0x1C, 0x00, 0x00, 0x00, 0x64] (.wrCapacity 100) :=
  ⟨rfl, rfl, rfl, rfl, rfl, rfl, rfl⟩

/-- The bus-error rows of 95_test_vectors 2.5: unmapped, misaligned, byte, halfword, reserved SIZE. -/
theorem test_decode_bus_errors :
    Spells [0x20, 0x20] (.busErrRd .word 0x020) ∧ Spells [0x2F, 0xFC] (.busErrRd .word 0xFFC) ∧
    Spells [0x20, 0x06] (.busErrRd .word 0x006) ∧ Spells [0x00, 0x04] (.busErrRd .byte 0x004) ∧
    Spells [0x10, 0x04] (.busErrRd .half 0x004) ∧ Spells [0x30, 0x04] (.busErrRd .reserved 0x004) ∧
    Spells [0x40, 0x08, 0x00, 0x00, 0x00, 0x01] (.busErrWr .byte 0x008 1) ∧
    Spells [0x70, 0x08, 0x00, 0x00, 0x00, 0x01] (.busErrWr .reserved 0x008 1) :=
  ⟨rfl, rfl, rfl, rfl, rfl, rfl, rfl, rfl⟩

theorem test_decode_ports :
    Spells [0x80, 0x00, 0xFF] (.epDone 0xFF) ∧
    Spells [0x81, 0x00, 0x00, 0x33, 0xDE, 0xAD, 0xBE, 0xEF] (.dmaWr 0x0033 0xDEADBEEF) :=
  ⟨rfl, rfl⟩

theorem test_decode_reserved :
    Spells [0x80, 0x01] (.rsvdPort 0x00 0x01) ∧ Spells [0x82, 0x00] (.rsvdPort 0x02 0x00) ∧
    Spells [0xBF, 0x00] (.rsvdPort 0x3F 0x00) ∧ Spells [0xC0, 0x00] (.rsvdClass 0) ∧
    Spells [0xFF, 0xFF] (.rsvdClass 0x3FFF) :=
  ⟨rfl, rfl, rfl, rfl, rfl⟩

/-- R80: a write needs its four bytes of data; nothing less is a transaction. -/
theorem test_decode_refuses_short : decode [0x60, 0x00, 0x00, 0x00, 0x00] = .error .shortPayload ∧
    decode [0x20] = .error .shortHeader := ⟨rfl, rfl⟩

/-- The table's numbering: header in bits 15:0, D in bits 47:16; the index in bits 31:16, the word in bits 63:32. -/
theorem test_table_word : decodeTableWord 48 0x00000040_6010 = some (.wrTrig 0x40) ∧
    decodeTableWord 64 0xDEADBEEF_0033_8100 = some (.dmaWr 0x33 0xDEADBEEF) ∧
    decodeTableWord 16 0x6000 = some .cmdNop ∧ decodeTableWord 24 0xFF8000 = some (.epDone 0xFF) := by decide

/-- R93: a pseudo-operation of the table. -/
theorem test_clr_cfg_lock : (Asm.clr .cfgLock).spell = [0x60, 0x04, 0x00, 0x00, 0x08, 0x00] := by decide

/-! ### Host reads -/

/-- H1. -/
theorem test_rdCmd : view State.readData (exec .rdCmd boot) = some (some 0) := by decide

/-- H16: Recording, BAND = HIGH, CLAMP = 1. -/
theorem test_rdStatus : view State.readData (exec .rdStatus (boot.setBlock
    { boot.block with recFlag := true, band := .high, sticky := ⟨true, false, false, false, false⟩ })) =
    some (some 0x0000010A) := by decide

/-- H17: all five sticky bits, Idle, BAND = LOW. -/
theorem test_rdStatus_sticky : view State.readData (exec .rdStatus (flagged (boot.setBlock
    { boot.block with band := .low }))) = some (some 0x00001F04) := by decide

/-- H31. -/
theorem test_rdNominal : view State.readData (exec .rdNominal boot) = some (some 0x30) := by decide

/-- H32. -/
theorem test_rdStep : view State.readData (exec .rdStep boot) = some (some 0x4) := by decide

/-- H33. -/
theorem test_rdTrig : view State.readData (exec .rdTrig boot) = some (some 0x40) := by decide

/-- H34. -/
theorem test_rdCount : view State.readData (exec .rdCount (boot.setBlock { boot.block with count := 44 })) =
    some (some 0x2C) := by decide

/-- H36. -/
theorem test_rdLevel : view State.readData (exec .rdLevel (boot.present (level 40))) = some (some 0x28) := by decide

/-- R181: the reference FIFO drives the level. -/
theorem test_rdLevel_fifo : view State.readData (exec .rdLevel live) = some (some 1) := by decide

/-- H38. -/
theorem test_rdCapacity : view State.readData (exec .rdCapacity boot) = some (some 0x34) := by decide

/-- H42. -/
theorem test_busErrRd : view (fun t => (t.readData, t.block.sticky)) (exec (.busErrRd .word 0x006) boot) =
    some (some 0, ⟨false, false, false, false, true⟩) := by decide

/-! ### Commands -/

/-- H2. -/
theorem test_cmdNop : after (exec .cmdNop boot) = some boot := by decide

/-- H3. -/
theorem test_cmdEnable : view (fun t => t.block.statusWord) (exec .cmdEnable boot) = some 1 := by decide

/-- H5. -/
theorem test_cmdEnable_recording : after (exec .cmdEnable live) = some live := by decide

/-- H6: Idle with COUNT 44. -/
theorem test_cmdDisable_idle : view (fun t => t.block.count)
    (exec .cmdDisable (boot.setBlock { boot.block with count := 44 })) = some 44 := by decide

/-- H8: Recording, COUNT 3, NOMINAL 2. -/
theorem test_cmdDisable_recording : view (fun t => (t.block.statusWord, t.block.count, t.block.out))
    (exec .cmdDisable live) = some (0, 2, []) := by decide

/-- H10, B7: the events in order, every word zero. -/
theorem test_cmdService : view (fun t => (t.block.statusWord, t.block.buf, t.block.out)) (exec .cmdService starting) =
    some (2, [(0, 0), (1, 0), (2, 0)], [.fifoClear, .captureEnable, .usbWrite 2 [0, 0]]) := by decide

/-- H11: COUNT 0. -/
theorem test_cmdService_empty : view (fun t => t.block.out)
    (exec .cmdService (starting.setBlock { starting.block with nominal := 0, count := 0 })) =
    some [.fifoClear, .captureEnable, .usbWrite 0 []] := by decide

/-- H14. -/
theorem test_cmdRsvd : view (fun t => t.block.statusWord) (exec (.cmdRsvd 0x11) boot) = some 0x400 := by decide

/-! ### Register writes -/

/-- H18: CLAMP cleared, BADCMD kept. -/
theorem test_wrStatus : view (fun t => t.block.sticky)
    (exec (.wrStatus 0x100) (boot.setBlock { boot.block with sticky := ⟨true, false, true, false, false⟩ })) =
    some ⟨false, false, true, false, false⟩ := by decide

/-- H21: every bit but D[12:8]. -/
theorem test_wrStatus_other_bits : after (exec (.wrStatus 0xFFFFE0FF) (flagged boot)) = some (flagged boot) := by decide

/-- H23: WARL. -/
theorem test_wrNominal : view (fun t => (t.block.nominal, t.block.count, t.block.sticky)) (exec (.wrNominal 60) boot) =
    some (52, 52, Sticky.reset) := by decide

/-- H25. -/
theorem test_wrNominal_locked : view (fun t => (t.block.nominal, t.block.sticky.cfgLock))
    (exec (.wrNominal 1) starting) = some (2, true) := by decide

/-- H26: COUNT 44 returns to NOMINAL. -/
theorem test_wrStep : view (fun t => (t.block.stepReg, t.block.count))
    (exec (.wrStep 2) (boot.setBlock { boot.block with count := 44 })) = some (2, 48) := by decide

/-- H28. -/
theorem test_wrStep_locked : view (fun t => (t.block.stepReg, t.block.sticky.cfgLock)) (exec (.wrStep 2) live) =
    some (1, true) := by decide

/-- H29: COUNT stays. -/
theorem test_wrTrig : view (fun t => (t.block.trig, t.block.count))
    (exec (.wrTrig 30) (boot.setBlock { boot.block with count := 44 })) = some (30, 44) := by decide

/-- H30. -/
theorem test_wrTrig_locked : view (fun t => (t.block.trig, t.block.sticky.cfgLock)) (exec (.wrTrig 30) live) =
    some (4, true) := by decide

/-- H35. -/
theorem test_wrCount : after (exec (.wrCount 0) boot) = some boot := by decide

/-- H37: the FIFO is not touched. -/
theorem test_wrLevel : after (exec (.wrLevel 0) live) = some live := by decide

/-- H39. -/
theorem test_wrCapacity : after (exec (.wrCapacity 100) boot) = some boot := by decide

/-- H45: SR stays 0. -/
theorem test_busErrWr : view (fun t => t.block.statusWord) (exec (.busErrWr .byte 0 1) boot) = some 0x1000 := by decide

/-! ### Port events -/

/-- V1, V2, V4, V8, V9, and with the clamp V11, V12, V13, V20, V21 (no 16-bit wrap). -/
theorem test_epDone_controller : vector 48 4 64 52 65 = some (.high, 52, false) ∧
    vector 48 4 64 52 64 = some (.hold, 48, false) ∧ vector 48 4 64 52 47 = some (.low, 44, false) ∧
    vector 48 4 40 52 44 = some (.high, 52, false) ∧ vector 48 4 40 52 40 = some (.low, 44, false) ∧
    vector 50 4 60 52 61 = some (.high, 50, true) ∧ vector 2 4 60 52 1 = some (.low, 2, true) ∧
    vector 4 4 60 52 3 = some (.low, 0, false) ∧ vector 52 65535 60 52 10 = some (.low, 52, true) ∧
    vector 52 65535 60 52 61 = some (.high, 52, true) :=
  ⟨by decide, by decide, by decide, by decide, by decide, by decide, by decide, by decide, by decide, by decide⟩

/-- E1 and B6 on the small machine: the old COUNT 3 goes out, the new one (level 1 below 2: LOW, 1) is armed. E4: Idle
without P_IDLE_REARM emits nothing. R164: a payload word that nothing has written stops the machine (a state no run
reaches). -/
theorem test_epDone_outputs : view (fun t => (t.block.out, t.block.count)) (exec (.epDone 0xFF) live) =
      some ([.usbWrite 3 [0xA, 0xB, 0xC], .dmaArm 1], 1) ∧
    view (fun t => (t.block.out, t.block.count))
      (exec (.epDone 0) ((State.resetWith { vectorParams with idleRearm := false }).present (level 40))) =
      some ([], 44) ∧
    exec (.epDone 0) (live.setBlock { live.block with buf := [(0, 0xA)] }) = .fault (.unwrittenWord 1) :=
  ⟨by decide, by decide, rfl⟩

/-- B2: the last word. -/
theorem test_dmaWr : view (fun t => (t.block.buf, t.block.sticky)) (exec (.dmaWr 51 0xDEADBEEF) boot) =
    some ([(51, 0xDEADBEEF)], Sticky.reset) := by decide

/-- B3: one past the last. -/
theorem test_dmaWr_outside : view (fun t => (t.block.buf, t.block.sticky.dmaOor)) (exec (.dmaWr 52 1) boot) =
    some ([], true) := by decide

/-- R164: a payload word that nothing has written stops the machine (a state no run reaches). -/
theorem test_epDone_unwritten : exec (.epDone 0) (live.setBlock { live.block with buf := [(0, 0xA)] }) =
    .fault (.unwrittenWord 1) := by rfl

/-! ### Steps -/

/-- One step of a state with one entry. -/
def stepOf (s : State) (e : Stimulus) : Host.Outcome State Fault Refusal := step { s with agenda := [e] }

/-- R60: the access at P_BASE + 0x014 reads COUNT. -/
theorem test_step_bus : view State.readData (stepOf boot (.bus (level 0) 0x1014 .word none)) = some (some 48) := by
  decide

/-- The placed transaction is what the next step runs, and nothing remains of it. -/
theorem test_step_fetch : view (fun t => (t.readData, t.agenda)) (step (boot.withFetchWord 16 0x201C)) =
    some (some 52, []) := by decide

/-- R186: one beat of the transfer. -/
theorem test_step_dma_beat : view (fun t => (t.block.buf, t.env.fifo, t.env.dmaIdx, t.env.dmaRem))
    (stepOf live .dmaBeat) = some ([(0, 0x11), (1, 0xB), (2, 0xC)], [], 1, 1) := by decide

/-- R182: two pushes fit a FIFO of depth 2; this is the second. -/
theorem test_step_pdm_push : view (fun t => t.env.fifo) (stepOf live (.pdmPush 0x22)) = some [0x11, 0x22] := by decide

/-- R188, R185: the head transfer is completed, the new one queued; the busy DMA channel refuses. -/
theorem test_step_usb_done : view (fun t => (t.env.usbInflight, t.env.history, t.env.dmaRem))
    (stepOf live (.usbDone true false 0)) = some ([(3, [0xA, 0xB, 0xC])], [.dmaRejected], 2) := by decide

/-- R233: a reset of the block alone leaves the collaborators. -/
theorem test_step_reset_block : view (fun t => (t.block.recFlag, t.block.count, t.env.fifo)) (stepOf live (.rst false)) =
    some (false, 2, [0x11]) := by decide

/-- R230: with nothing presented the machine waits. -/
theorem test_step_waits : after (step live) = some live := by decide

/-! ### Witnesses: instances that meet the hypotheses of the statements -/

/-- A recording state that meets the invariant, with a transfer armed, one in flight and a sample queued. -/
theorem live_inv : live.Inv where
  params_legal := by decide
  not_both := by decide
  nominal_le := by decide
  count_le := by decide
  count_near := .inr (.inl rfl)
  buf_wf := by decide
  buf_inside := by decide
  recording_written := by decide
  out_bounded := by simp [live, Block.reset]
  fifo_le := by decide
  dma_inside := by decide
  inflight_bounded := by decide

/-- The same with entries presented: the invariant does not read them. -/
theorem live_inv_agenda (todo : List Stimulus) : ({ live with agenda := todo } : State).Inv :=
  ⟨live_inv.1, live_inv.2, live_inv.3, live_inv.4, live_inv.5, live_inv.6, live_inv.7, live_inv.8, live_inv.9,
    live_inv.10, live_inv.11, live_inv.12⟩

theorem witness_DecodeInvertsEncode : (Instr.cmdRsvd 4).wf = true ∧ (Instr.busErrRd .word 0x020).wf = true ∧
    (Instr.busErrWr .reserved 0x000 1).wf = true ∧ (Instr.rsvdPort 2 0).wf = true ∧ (Instr.rsvdPort 0 1).wf = true := by
  decide

theorem witness_DecodedBytesAreTheEncoding : decode [0x20, 0x1C, 0x55] = .ok (.rdCapacity, [0x55]) := rfl

theorem witness_HeaderFixesTheLength : headerClass 0x0000 = .hostRd ∧ headerClass 0x3FFF = .hostRd ∧
    headerClass 0x4000 = .hostWr ∧ headerClass 0x7FFF = .hostWr ∧
    (headerClass 0x8001 = .port ∧ (0x8001 : Half) ≠ 0x8000 ∧ (0x8001 : Half) ≠ 0x8100) ∧
    headerClass 0xBFFF = .port ∧ headerClass 0xC000 = .reserved ∧ headerClass 0xFFFF = .reserved := by decide

theorem witness_OnlyMappedWordAccessesNameRegisters :
    (Size.word = .word ∧ (0x01C : Offset).toNat % 4 = 0 ∧ (0x01C : Offset).toNat ≤ 0x01C) ∧
    ¬(Size.word = .word ∧ (0x020 : Offset).toNat % 4 = 0 ∧ (0x020 : Offset).toNat ≤ 0x01C) ∧
    ¬(Size.half = .word ∧ (0x000 : Offset).toNat % 4 = 0 ∧ (0x000 : Offset).toNat ≤ 0x01C) := by decide

/-- The words where the clauses meet: 3 is SERVICE, 4 and 16 are reserved. -/
theorem witness_CommandWordsDecode : ¬((3 : Word).extractLsb' 4 28 ≠ 0 ∨ 4 ≤ ((3 : Word).extractLsb' 0 4).toNat) ∧
    ((4 : Word).extractLsb' 4 28 ≠ 0 ∨ 4 ≤ ((4 : Word).extractLsb' 0 4).toNat) ∧
    ((16 : Word).extractLsb' 4 28 ≠ 0 ∨ 4 ≤ ((16 : Word).extractLsb' 0 4).toNat) := by decide

theorem witness_StepRunsTheDecodedTransaction :
    ({ live with agenda := [.txn (level 3) [0x20, 0x14]] } : State).agenda = .txn (level 3) [0x20, 0x14] :: [] ∧
    decode [0x20, 0x14] = .ok (.rdCount, []) := ⟨rfl, rfl⟩

theorem witness_PlacedTableWordRunsNext : decodeTableWord 48 0x00000003_6000 = some .cmdService := by decide

/-- The first and the last byte of the window, and the bytes beside it. -/
theorem witness_BusAccessReachesTheWindow : boot.params.base = 0x1000 ∧ 0x1000 = boot.params.base + (0x000 : Offset).toNat ∧
    0x1FFF = boot.params.base + (0xFFF : Offset).toNat ∧ 0x0FFF < boot.params.base ∧ boot.params.base + 4096 ≤ 0x2000 := by
  decide

theorem witness_ReadsAnswerTheirRegister : live.Inv := live_inv

theorem witness_StatusReadsItsLayout : live.Inv := live_inv

theorem witness_LevelReadsThePort : boot.inputs.level = some 0 ∧
    (live.inputs.level = none ∧ live.env.fifo.length ≤ live.params.fifoDepth.toNat) := by decide

/-- 0x201C is a register read's header, 0x2020 is none's. -/
theorem witness_BusErrorReadAnswersZero : (0x2020 : Half).extractLsb' 14 2 = 0 ∧
    (∀ r : Reg, (0x2020 : Half) ≠ 0x2000#16 ||| r.offset.zeroExtend 16) ∧
    (0x201C : Half) = 0x2000#16 ||| Reg.capacity.offset.zeroExtend 16 :=
  ⟨by decide, fun r => by cases r <;> decide, by decide⟩

theorem witness_EnableRequestsASession : boot.block.recFlag = false ∧ live.block.recFlag = true := by decide

theorem witness_DisableStopsTheSession : live.block.recFlag = true ∧ starting.block.recFlag = false ∧
    (boot.block.sr = false ∧ boot.block.recFlag = false) := by decide

theorem witness_ServiceStartsTheSession : boot.block.sr = false ∧
    (starting.block.sr = true ∧ starting.block.count.toNat ≤ starting.capacity ∧
      (∀ cell ∈ starting.block.buf, cell.1 < starting.capacity)) ∧
    starting.inputs.accept = true ∧ (starting.present ⟨none, false, false⟩).inputs.accept = false := by decide

theorem witness_ReservedCommandSetsBadcmd :
    (0x80000001 : Word).extractLsb' 4 28 ≠ 0 ∨ 4 ≤ ((0x80000001 : Word).extractLsb' 0 4).toNat := by decide

theorem witness_NominalWriteIsLegalAndLocked : boot.block.session = 0 ∧ starting.block.session ≠ 0 := by decide

theorem witness_StepWriteIsLocked : boot.block.session = 0 ∧ live.block.session ≠ 0 := by decide

theorem witness_TrigWriteIsLocked : boot.block.session = 0 ∧ live.block.session ≠ 0 := by decide

theorem witness_BusErrorWriteChangesNoRegister : (0x6020 : Half).extractLsb' 14 2 = 1 ∧
    (∀ r : Reg, (0x6020 : Half) ≠ 0x6000#16 ||| r.offset.zeroExtend 16) :=
  ⟨by decide, fun r => by cases r <;> decide⟩

/-- The last index and the first outside. -/
theorem witness_DmaWriteIsBoundsChecked : (51 : Half).toNat < boot.params.capacity.toNat ∧
    boot.params.capacity.toNat ≤ (52 : Half).toNat := by decide

theorem witness_BufferHasItsListedAccesses : (∃ t, exec .cmdEnable boot = .next t) ∧ Instr.cmdEnable ≠ .cmdService ∧
    (∀ idx d, Instr.cmdEnable ≠ .dmaWr idx d) ∧ (∀ err, Instr.cmdEnable ≠ .epDone err) :=
  ⟨⟨_, rfl⟩, by simp, by simp, by simp⟩

theorem witness_CompletionRunsThePump :
    (live.block.recFlag = true ∧ live.Holds live.block.count.toNat [0xA, 0xB, 0xC]) ∧
    (boot.block.recFlag = false ∧ boot.params.idleRearm = true) ∧
    (State.resetWith { smallParams with idleRearm := false }).params.idleRearm = false :=
  ⟨⟨rfl, by decide, by decide⟩, by decide, rfl⟩

/-- Three HIGH cycles in a row, with NOMINAL + STEP equal to P_CAPACITY. -/
theorem witness_CountStaysWithinOneStep : boot.block.nominal.toNat ≤ boot.params.capacity.toNat ∧
    ∃ t u v, boot.block.trig.toNat < (boot.present (level 65)).fifoLevel.toNat ∧
      exec (.epDone 0) (boot.present (level 65)) = .next t ∧
      t.block.trig.toNat < (t.present (level 65)).fifoLevel.toNat ∧ exec (.epDone 0) (t.present (level 65)) = .next u ∧
      u.block.trig.toNat < (u.present (level 65535)).fifoLevel.toNat ∧
      exec (.epDone 0) (u.present (level 65535)) = .next v :=
  ⟨by decide, _, _, _, by decide, rfl, by decide, rfl, by decide, rfl⟩

/-- What may stand between two completions: a beat, a DMA write, a PDM push, a SERVICE and a refused WR_NOMINAL, the last
by its bus address. -/
def between : List Stimulus :=
  [.dmaBeat, .txn (level 3) [0x81, 0x00, 0x00, 0x01, 0x00, 0x00, 0x00, 0x05], .pdmPush 9,
    .txn (level 3) [0x60, 0x00, 0x00, 0x00, 0x00, 0x03], .bus (level 3) 0x1008 .word (some 1)]

theorem between_operations : between.map (Stimulus.operation smallParams) =
    [none, some (.dmaWr 1 5), none, some .cmdService, some (.wrNominal 1)] := by decide

theorem between_staysInCycle : ∀ x ∈ between, x.staysInCycle live.params := by
  have h : ∀ x ∈ between, x.operation smallParams ∈ [none, some (.dmaWr 1 5), some .cmdService, some (.wrNominal 1)] := by
    decide
  have hr : ∀ x ∈ between, x ≠ .rst true ∧ x ≠ .rst false := by decide
  intro x hx
  have hop := h x hx
  simp only [List.mem_cons, List.not_mem_nil, or_false] at hop
  refine ⟨fun err e => ?_, fun e => ?_, fun c => ?_⟩
  · rw [show x.operation smallParams = some (.epDone err) from e] at hop; simp at hop
  · rw [show x.operation smallParams = some .cmdDisable from e] at hop; simp at hop
  · cases c
    · exact (hr x hx).2
    · exact (hr x hx).1

theorem witness_UsbLengthFollowsDmaLength : live.block.recFlag = true ∧ live.block.sr = false ∧
    (∀ x ∈ between, x.staysInCycle live.params) ∧
    ∃ t u v, exec (.epDone 0) live = .next t ∧ runSteps between.length { t with agenda := between } = .next u ∧
      exec (.epDone 1) (u.present (level 9)) = .next v ∧ u.block.buf = [(0, 0x11), (1, 5), (2, 0xC)] :=
  ⟨rfl, rfl, between_staysInCycle, _, _, _, rfl, rfl, rfl, rfl⟩

/-- The other branch of the start-request premise: SR set while recording, and no SERVICE between. -/
theorem witness_UsbLengthFollowsDmaLength_requested :
    let s := live.setBlock { live.block with sr := true }
    s.block.recFlag = true ∧ s.block.sr = true ∧ Stimulus.dmaBeat.operation s.params ≠ some .cmdService ∧
    ∃ t u v, exec (.epDone 0) s = .next t ∧ runSteps 1 { t with agenda := [.dmaBeat] } = .next u ∧
      exec (.epDone 1) u = .next v :=
  ⟨rfl, rfl, by simp [Stimulus.operation], _, _, _, rfl, rfl, rfl⟩

theorem witness_ReservedClassIsRefused : (0xC000 : Half).extractLsb' 14 2 = 0b11#2 := by decide

theorem witness_ReservedPortIsRefused :
    ((0x8200 : Half).extractLsb' 14 2 = 0b10#2 ∧ 2 ≤ ((0x8200 : Half).extractLsb' 8 6).toNat) ∧
    ((0x8101 : Half).extractLsb' 14 2 = 0b10#2 ∧ (0x8101 : Half).extractLsb' 0 8 ≠ 0) := by decide

theorem witness_SessionMovesOnlyByItsTable : (∃ t, exec .cmdService starting = .next t) ∧
    starting.block.session ≠ 0b11#2 := ⟨⟨_, rfl⟩, by decide⟩

theorem witness_StartAndRecordingNeverBoth : ¬(live.block.sr = true ∧ live.block.recFlag = true) ∧
    ∃ t, step live = .next t := ⟨by decide, _, rfl⟩

/-- Each cause is raised in some operation, and each bit cleared in some STATUS write. -/
theorem witness_StickyBitsMoveOnlyByTheirCauses :
    (vector 2 4 60 52 1).map (·.2.2) = some true ∧
    view (·.block.sticky.dmaOor) (exec (.dmaWr 52 0) boot) = some true ∧
    view (·.block.sticky.badcmd) (exec (.cmdRsvd 4) boot) = some true ∧
    view (·.block.sticky.cfgLock) (exec (.wrTrig 0) live) = some true ∧
    view (·.block.sticky.buserr) (exec (.busErrRd .half 0) boot) = some true ∧
    (∀ c ∈ [ErrorCause.clamp, .dmaOor, .badcmd, .cfgLock, .buserr], boot.block.sticky.get c = false ∧
      (flagged boot).block.sticky.get c = true ∧
      view (·.block.sticky.get c) (exec (.wrStatus 0x1F00) (flagged boot)) = some false) := by decide

theorem witness_OneOperationRaisesOneCause : (∀ d, Instr.cmdRsvd 4 ≠ .wrStatus d) ∧
    view (·.block.sticky.get .clamp) (exec (.cmdRsvd 4) (flagged boot)) = some true ∧ boot.block.sticky.get .badcmd = false ∧
    view (·.block.sticky.get .badcmd) (exec (.cmdRsvd 4) boot) = some true :=
  ⟨by simp, by decide, by decide, by decide⟩

theorem witness_ConfigurationIsLockedOutsideIdle : (∃ t, exec (.wrStep 9) live = .next t) ∧ live.block.session ≠ 0 :=
  ⟨⟨_, rfl⟩, by decide⟩

theorem witness_BandIsAStatusMirror : (∃ t, exec (.epDone 0) live = .next t) ∧ (∃ t, exec .cmdDisable live = .next t) ∧
    (∀ err, Instr.cmdDisable ≠ .epDone err) ∧ Instr.cmdDisable ≠ .rdStatus :=
  ⟨⟨_, rfl⟩, ⟨_, rfl⟩, by simp, by simp⟩

theorem witness_OutputLogOnlyGrows : (∃ t, exec (.epDone 0) live = .next t) ∧ (∃ t, exec .rdLevel live = .next t) ∧
    Instr.rdLevel ≠ .cmdService ∧ (∀ err, Instr.rdLevel ≠ .epDone err) := ⟨⟨_, rfl⟩, ⟨_, rfl⟩, by simp, by simp⟩

theorem witness_OnlyLevelReadAndCompletionSampleTheFifo : (∃ t, exec .cmdService starting = .next t) ∧
    Instr.cmdService ≠ .rdLevel ∧ (∀ err, Instr.cmdService ≠ .epDone err) := ⟨⟨_, rfl⟩, by simp, by simp⟩

theorem witness_EveryOperationCompletes : live.Inv ∧ (∀ p low, Instr.epDone 0 ≠ .rsvdPort p low) ∧
    (∀ r, Instr.epDone 0 ≠ .rsvdClass r) := ⟨live_inv, by simp, by simp⟩

theorem witness_ParametersNeverChange : ∃ t, stepOf live .dmaBeat = .next t := ⟨_, rfl⟩

theorem witness_ResetGivesTheResetValues : ({ live with agenda := [.rst true] } : State).agenda = .rst true :: [] := rfl

/-- The ends of R8's ranges are legal. -/
theorem witness_InvariantHoldsAtReset : ({ smallParams with capacity := 1, fifoDepth := 1 } : Params).legal = true ∧
    ({ smallParams with capacity := 65535, fifoDepth := 65535 } : Params).legal = true := by decide

theorem witness_StepKeepsTheInvariant : ({ live with agenda := [.usbDone true false 0] } : State).Inv ∧
    ∃ t, step { live with agenda := [.usbDone true false 0] } = .next t := ⟨live_inv_agenda _, _, rfl⟩

theorem witness_NoStepFaults : ({ live with agenda := [.txn (level 0) [0x80, 0x00, 0x00]] } : State).Inv :=
  live_inv_agenda _

theorem witness_NoRunFromResetFaults : vectorParams.legal = true := by decide

/-- Capture off, room for one more, and a full FIFO. -/
theorem witness_PdmPushFillsTheFifo : small.env.pdmEn = false ∧
    (live.env.pdmEn = true ∧ live.env.fifo.length < live.params.fifoDepth.toNat) ∧
    live.params.fifoDepth.toNat ≤ (live.setEnv { live.env with fifo := [1, 2] }).env.fifo.length := by decide

/-- Beats left and a sample queued; no beat left; an empty FIFO. -/
theorem witness_DmaBeatMovesOneSample : (∃ w ws, live.env.fifo = w :: ws ∧ 0 < live.env.dmaRem) ∧
    ({ live with agenda := [.dmaBeat] } : State).Inv ∧ small.env.dmaRem = 0 ∧ small.env.fifo = [] :=
  ⟨⟨_, _, rfl, by decide⟩, live_inv_agenda _, rfl, rfl⟩

/-- An idle channel, a busy one that restarts, a busy one that refuses. -/
theorem witness_DmaArmIsAcceptedOrRefused : Env.reset.dmaRem = 0 ∧ (⟨none, true, true⟩ : Inputs).restart = true ∧
    (live.env.dmaRem ≠ 0 ∧ live.inputs.restart = false) := by decide

theorem witness_UsbWriteIsAcceptedOrRefused : (⟨none, true, false⟩ : Inputs).accept = true ∧
    (⟨none, false, false⟩ : Inputs).accept = false := by decide

theorem witness_ReferenceCompletionNeedsATransfer : small.env.usbInflight = [] ∧
    live.env.usbInflight = (1, [0x7]) :: [] := by decide

theorem witness_CaptureRequestsAreObeyed : live.env.pdmEn = true ∧ (∃ t, stepOf live (.rst false) = .next t) ∧
    (∀ more, [Stimulus.rst false] ≠ .rst true :: more) := ⟨rfl, ⟨_, rfl⟩, by simp⟩

/-- A reference run of three steps, with a beat among them. -/
theorem witness_ReferenceRunsNeverRaiseDmaOor :
    let s : State := { live with agenda := [.dmaBeat, .pdmPush 5, .usbDone true true 0] }
    s.Inv ∧ s.underReference ∧ s.block.sticky.dmaOor = false ∧ ∃ t, runSteps 3 s = .next t :=
  ⟨live_inv_agenda _, by unfold State.underReference; decide, rfl, _, rfl⟩

theorem witness_RequestsCoalesce : starting.block.recFlag = false := by decide

theorem witness_EnableThenDisableIssuesNothing : boot.block.session = 0 := by decide

theorem witness_RepeatedHostOperationChangesNothingMore : (∀ err, Instr.cmdService ≠ .epDone err) ∧
    (∀ idx d, Instr.cmdService ≠ .dmaWr idx d) ∧ ∃ t, exec .cmdService starting = .next t := ⟨by simp, by simp, _, rfl⟩

end Sys2Proof.Tests
end

/-! The scope family (00_scope): no step changes a parameter (R8), and the register window is where P_BASE
places it on the host bus (R11, R60). -/

namespace Sys2Proof.Machine

/-! ### The parameters under the operations and the entries (R8) -/

@[simp] theorem State.configure_params (s : State) (b : Block) : (s.configure b).params = s.params := by
  rcases State.configure_cases s b with ⟨-, h⟩ | ⟨-, h⟩ <;> rw [h] <;> rfl

@[simp] theorem State.dmaWrite_params (s : State) (i : Nat) (w : Word) : (s.dmaWrite i w).params = s.params := by
  rcases State.dmaWrite_cases s i w with ⟨-, h⟩ | ⟨-, h⟩ <;> rw [h] <;> rfl

/-- CMD_SERVICE keeps the parameters, with a start request pending or without. -/
theorem exec_service_params {s t : State} (h : exec .cmdService s = .next t) : t.params = s.params := by
  cases hs : s.block.sr with
  | true => rw [exec_service_frame hs h]
  | false => rw [exec_service_idle hs] at h; cases h; rfl

/-- Every operation keeps the parameters. Those left to the last case change the block or the answer only. -/
theorem exec_params {i : Instr} {s t : State} (h : exec i s = .next t) : t.params = s.params := by
  cases i with
  | cmdService => exact exec_service_params h
  | epDone err => rw [exec_epDone_frame h]
  | cmdEnable => cases h; split <;> rfl
  | wrNominal d => cases h; exact State.configure_params s _
  | wrStep d => cases h; exact State.configure_params s _
  | wrTrig d => cases h; exact State.configure_params s _
  | dmaWr idx data => cases h; exact State.dmaWrite_params s _ data
  | rsvdPort => cases h
  | rsvdClass => cases h
  | _ => cases h; rfl

/-- Every entry keeps the parameters: an operation by `exec_params`, an environment's step because it changes the
environment and the buffer only, the reset input because it reads them (R230). -/
theorem State.runEntry_params {s t : State} {e : Stimulus} (h : s.runEntry e = .next t) : t.params = s.params := by
  rcases State.runEntry_next h with ⟨inp, _, i, -, -, hi⟩ | ⟨inp, _, _, _, -, rfl⟩ | ⟨w, -, -, rfl⟩ |
    ⟨w, _, -, -, -, rfl⟩ | ⟨a, r, _, _, _, -, -, hi⟩ | ⟨c, -, rfl⟩
  · exact (exec_params hi).trans (State.present_params s inp)
  · rfl
  · rfl
  · exact State.dmaWrite_params _ _ w
  · exact (exec_params hi).trans (State.present_params s ⟨none, a, r⟩)
  · rfl

/-- Settles O41: a step waits or takes an entry, and every entry keeps the parameters. -/
theorem parametersNeverChange : Obligations.ParametersNeverChange := by
  intro s t h
  rcases step_next_cases h with ⟨-, rfl⟩ | ⟨e, more, -, he⟩
  · rfl
  · exact (State.runEntry_params he).trans (State.beginEntry_params s more)

/-! ### The register window on the host bus (R11, R60) -/

/-- The address of an offset has that offset in the window. -/
@[simp] theorem offsetOf_address (p : Params) (off : Offset) : p.offsetOf (p.address off) = some off := by
  have inside : p.base ≤ p.address off ∧ p.address off < p.base + 4096 :=
    ⟨Nat.le_add_right _ _, Nat.add_lt_add_left off.isLt _⟩
  rw [Params.offsetOf, if_pos inside, Params.address, Nat.add_sub_cancel_left, BitVec.ofNat_toNat, BitVec.setWidth_eq]

/-- An address has no offset in the window exactly where it lies outside its 4096 bytes. -/
theorem offsetOf_eq_none {p : Params} {addr : Nat} :
    p.offsetOf addr = none ↔ addr < p.base ∨ p.base + 4096 ≤ addr := by
  unfold Params.offsetOf
  split
  · simp only [reduceCtorEq, false_iff]; omega
  · simp only [true_iff]; omega

/-- An access inside the window is the transaction of its offset. -/
theorem State.runBusAccess_inside {s : State} {addr : Nat} {off : Offset} (h : s.params.offsetOf addr = some off)
    (size : Size) (data : Option Word) :
    s.runBusAccess addr size data = s.runTransaction (spellAccess size off data) := by
  rw [State.runBusAccess, h]

/-- An access outside the window leaves the state as it is. -/
theorem State.runBusAccess_outside {s : State} {addr : Nat} (h : s.params.offsetOf addr = none) (size : Size)
    (data : Option Word) : s.runBusAccess addr size data = .next s := by
  rw [State.runBusAccess, h]

/-- Settles O10: an address of the window has its offset and no other address has one, so the access runs as the
transaction of that offset or reaches nothing. -/
theorem busAccessReachesTheWindow : Obligations.BusAccessReachesTheWindow := by
  intro s inp addr size data more hs
  rw [step_cons hs]
  constructor
  · rintro off rfl
    have hoff : ((s.beginEntry more).present inp).params.offsetOf (s.params.base + off.toNat) = some off :=
      offsetOf_address s.params off
    rw [step_cons rfl]
    exact State.runBusAccess_inside hoff size data
  · intro outside
    have hoff : ((s.beginEntry more).present inp).params.offsetOf addr = none := offsetOf_eq_none.mpr outside
    exact State.runBusAccess_outside hoff size data

end Sys2Proof.Machine

/-! The state family (10_state), first part: the invariant of the machine holds at reset and every step keeps it. -/

namespace Sys2Proof.Machine

/-! ### What every part of a step keeps, every step keeps -/

/-- The parts a step is made of (R63, R66) keep `P`: taking an entry and its inputs, an operation, the environment's own
changes (R182, R186, R188), and the reset input (R230). -/
structure KeptByStepParts (P : State → Prop) : Prop where
  beginEntry : ∀ {s} more, P s → P (s.beginEntry more)
  present : ∀ {s} inp, P s → P (s.present inp)
  exec : ∀ {i s t}, P s → exec i s = .next t → P t
  push : ∀ {s} w, P s → P (s.setEnv (s.env.push s.params.fifoDepth.toNat w))
  beat : ∀ {s}, P s → s.env.dmaRem ≠ 0 → P (s.setEnv s.env.beat)
  dmaWrite : ∀ {s} i w, P s → P (s.dmaWrite i w)
  completeUsb : ∀ {s}, P s → P (s.setEnv s.env.completeUsb)
  applyReset : ∀ {s} c, P s → P (s.applyReset c)

theorem KeptByStepParts.runEntry {P : State → Prop} (k : KeptByStepParts P) {s t : State} {e : Stimulus} (hs : P s)
    (h : s.runEntry e = .next t) : P t := by
  rcases State.runEntry_next h with ⟨inp, _, i, -, -, hi⟩ | ⟨inp, _, _, _, -, rfl⟩ | ⟨w, -, -, rfl⟩ |
    ⟨w, _, -, -, hrem, rfl⟩ | ⟨a, r, _, _, _, -, -, hi⟩ | ⟨c, -, rfl⟩
  · exact k.exec (k.present inp hs) hi
  · exact k.present inp hs
  · exact k.push w hs
  · exact k.dmaWrite _ w (k.beat hs hrem)
  · exact k.exec (k.completeUsb (k.present ⟨none, a, r⟩ hs)) hi
  · exact k.applyReset c hs

theorem KeptByStepParts.step {P : State → Prop} (k : KeptByStepParts P) {s t : State} (hs : P s)
    (h : step s = .next t) : P t := by
  rcases step_next_cases h with ⟨-, rfl⟩ | ⟨e, more, -, he⟩
  · exact hs
  · exact k.runEntry (k.beginEntry more hs) he

/-! ### The environment's part of the invariant -/

/-- The clauses of the invariant about the environment alone (R181, R185 to R187). -/
structure Env.Bounded (p : Params) (e : Env) : Prop where
  fifo_le : e.fifo.length ≤ p.fifoDepth.toNat
  dma_inside : e.dmaIdx + e.dmaRem ≤ p.capacity.toNat
  inflight_bounded : ∀ t ∈ e.usbInflight, t.1 ≤ p.capacity.toNat ∧ t.2.length = t.1

theorem Env.reset_bounded (p : Params) : Env.reset.Bounded p where
  fifo_le := Nat.zero_le _
  dma_inside := Nat.zero_le _
  inflight_bounded := fun _ ht => absurd ht List.not_mem_nil

/-- An armed transfer starts at index 0 with a length inside the buffer, or the old one goes on (R185). -/
theorem Env.Bounded.armDma {p : Params} {e : Env} (h : e.Bounded p) {n : Nat} (hn : n ≤ p.capacity.toNat) (r : Bool) :
    (e.armDma r n).Bounded p where
  fifo_le := by rw [Env.armDma_fifo]; exact h.fifo_le
  dma_inside := by
    rcases Env.armDma_cases e r n with ⟨hidx, hrem⟩ | ⟨hidx, hrem⟩
    · omega
    · rw [hidx, hrem]; exact h.dma_inside
  inflight_bounded := by rw [Env.armDma_usbInflight]; exact h.inflight_bounded

/-- A transfer joins those in flight only as the block emitted it (R187). -/
theorem Env.Bounded.takeUsb {p : Params} {e : Env} (h : e.Bounded p) {n : Nat} {ws : List Word}
    (hn : n ≤ p.capacity.toNat ∧ ws.length = n) (a : Bool) : (e.takeUsb a n ws).Bounded p where
  fifo_le := by rw [Env.takeUsb_fifo]; exact h.fifo_le
  dma_inside := by rw [Env.takeUsb_dmaIdx, Env.takeUsb_dmaRem]; exact h.dma_inside
  inflight_bounded := by
    rw [Env.takeUsb_usbInflight]
    split
    · intro t ht
      rcases List.mem_append.mp ht with ht | ht
      · exact h.inflight_bounded t ht
      · rw [List.mem_singleton.mp ht]; exact hn
    · exact h.inflight_bounded

/-- The environment's response to a bounded event is bounded (R180, R183 to R187). -/
theorem Env.Bounded.respond {p : Params} {e : Env} (h : e.Bounded p) (inp : Inputs) {ev : Event}
    (hev : ev.bounded p.capacity.toNat) : (e.respond inp ev).Bounded p := by
  cases ev with
  | fifoClear => exact { h with fifo_le := Nat.zero_le _ }
  | captureEnable => exact { h with }
  | dmaArm n => exact h.armDma hev inp.restart
  | usbWrite n ws => exact h.takeUsb hev inp.accept

/-- A push stops at the FIFO's depth (R181, R182). -/
theorem Env.Bounded.push {p : Params} {e : Env} (h : e.Bounded p) (w : Word) :
    (e.push p.fifoDepth.toNat w).Bounded p := by
  unfold Env.push
  split
  · rename_i room
    have grown : (e.fifo ++ [w]).length ≤ p.fifoDepth.toNat := by
      rw [List.length_append, List.length_singleton]
      exact Nat.succ_le_of_lt room
    exact { h with fifo_le := grown }
  · exact { h with }

/-- A beat moves the index up by the one beat it takes from those left (R186). -/
theorem Env.Bounded.beat {p : Params} {e : Env} (h : e.Bounded p) (hrem : e.dmaRem ≠ 0) : e.beat.Bounded p where
  fifo_le := Nat.le_trans (by simp [Env.beat]) h.fifo_le
  dma_inside := by have := h.dma_inside; simp only [Env.beat]; omega
  inflight_bounded := h.inflight_bounded

theorem Env.Bounded.completeUsb {p : Params} {e : Env} (h : e.Bounded p) : e.completeUsb.Bounded p :=
  { h with inflight_bounded := fun t ht => h.inflight_bounded t (List.mem_of_mem_tail ht) }

/-! ### The invariant under the state's operations -/

theorem State.Inv.env_bounded {s : State} (h : s.Inv) : s.env.Bounded s.params := { h with }

theorem State.Inv.setEnv {s : State} (h : s.Inv) {e : Env} (he : e.Bounded s.params) : (s.setEnv e).Inv :=
  { h with
    fifo_le := he.fifo_le
    dma_inside := he.dma_inside
    inflight_bounded := he.inflight_bounded }

theorem State.Inv.beginEntry {s : State} (h : s.Inv) (more : List Stimulus) : (s.beginEntry more).Inv := { h with }

theorem State.Inv.present {s : State} (h : s.Inv) (inp : Inputs) : (s.present inp).Inv := { h with }

theorem State.Inv.raise {s : State} (h : s.Inv) (c : ErrorCause) : (s.raise c).Inv := { h with }

/-- A bounded event keeps the log bounded, and the response to it the environment. -/
theorem State.Inv.emit {s : State} (h : s.Inv) {ev : Event} (hev : ev.bounded s.capacity) : (s.emit ev).Inv :=
  { h.setEnv (h.env_bounded.respond s.inputs hev) with
    out_bounded := by
      intro e he
      rcases List.mem_append.mp he with he | he
      · exact h.out_bounded e he
      · rw [List.mem_singleton.mp he]; exact hev }

/-- The USB write of COUNT words is bounded: a payload read answers as many words as asked for (R162). -/
theorem State.Inv.emit_payload {s : State} (h : s.Inv) {ws : List Word}
    (hw : s.payload s.block.count.toNat = .ok ws) : (s.emit (.usbWrite s.block.count.toNat ws)).Inv :=
  h.emit ⟨h.count_le, (State.payload_eq_ok.mp hw).1⟩

/-- A DMA write in range keeps the buffer canonical, inside its bounds and written (R160); another only raises. -/
theorem State.Inv.dmaWrite {s : State} (h : s.Inv) (i : Nat) (w : Word) : (s.dmaWrite i w).Inv := by
  rcases State.dmaWrite_cases s i w with ⟨hi, e⟩ | ⟨-, e⟩ <;> rw [e]
  · exact { h with
      buf_wf := Memory.write_wf h.buf_wf i w
      buf_inside := Memory.write_inside h.buf_inside hi w
      recording_written := by
        intro hr j hj
        rw [State.setBlock_block, Memory.read_write]
        split
        · rfl
        · exact h.recording_written hr j hj }
  · exact h.raise .dmaOor

/-- Every word of a zero-filled buffer has been written (R161). -/
theorem Memory.zeros_written {cap i : Nat} (h : i < cap) : ((Memory.zeros cap).read i).isSome = true := by
  rw [Memory.read_zeros, if_pos h]; rfl

theorem State.Inv.zeroFill {s : State} (h : s.Inv) : s.zeroFill.Inv :=
  { h with
    buf_wf := Memory.zeros_wf s.capacity
    buf_inside := Memory.zeros_inside s.capacity
    recording_written := fun _ _ hi => Memory.zeros_written hi }

/-- A configuration write keeps the invariant where the block it accepts does (R41). -/
theorem State.Inv.configure {s : State} (h : s.Inv) {b : Block} (hb : (s.setBlock b).Inv) : (s.configure b).Inv := by
  rcases State.configure_cases s b with ⟨-, e⟩ | ⟨-, e⟩ <;> rw [e]
  · exact hb
  · exact h.raise .cfgLock

/-! ### The controller (R130 to R136) -/

/-- A candidate is NOMINAL, or one step from it (R132). -/
theorem State.candidate_cases (s : State) : s.candidate = s.block.nominal.toNat ∨
    s.candidate = s.block.nominal.toNat + s.block.stepReg.toNat ∨
    s.candidate = s.block.nominal.toNat - s.block.stepReg.toNat := by
  unfold State.candidate
  cases s.verdict with
  | hold => exact .inl rfl
  | high => exact .inr (.inl rfl)
  | low => exact .inr (.inr rfl)

/-- What the clamp stores is NOMINAL, or one step from it, computed on integers (R42, R132, R133). -/
theorem State.recount_countNearNominal (s : State) : s.recount.block.countNearNominal := by
  simp only [Block.countNearNominal, State.recount_block]
  cases hc : clampNeeded s.capacity s.candidate with
  | true => rw [clampCount_replaced hc]; exact .inl rfl
  | false =>
    have kept := clampCount_kept hc s.capacity_lt s.block.nominal
    have near := s.candidate_cases
    omega

theorem State.Inv.recount {s : State} (h : s.Inv) : s.recount.Inv := by
  have near := s.recount_countNearNominal
  rw [State.recount_eq] at near ⊢
  exact { h with
    count_le := clampCount_le h.nominal_le s.capacity_lt s.candidate
    count_near := near }

theorem State.Inv.rearm {s : State} (h : s.Inv) : s.rearm.Inv := by
  rcases State.rearm_cases s with e | e <;> rw [e]
  · exact h.emit h.count_le
  · exact h

/-- The completion keeps the invariant: the USB write while recording, the recount, the re-arm (R130). -/
theorem exec_epDone_inv {s t : State} {err : Byte} (h : s.Inv) (he : exec (.epDone err) s = .next t) : t.Inv := by
  obtain ⟨u, rfl, ⟨rfl, -⟩ | ⟨-, ws, hw, rfl⟩⟩ := exec_epDone_next he
  · exact h.recount.rearm
  · exact (h.emit_payload hw).recount.rearm

/-! ### The commands and the configuration writes -/

/-- CMD_ENABLE while recording changes nothing (R104). -/
theorem exec_enable_recording {s : State} (h : s.block.recFlag = true) : exec .cmdEnable s = .next s :=
  congrArg Host.Outcome.next (if_pos h)

theorem exec_enable_inv {s t : State} (h : s.Inv) (he : exec .cmdEnable s = .next t) : t.Inv := by
  cases hr : s.block.recFlag with
  | true => rw [exec_enable_recording hr] at he; cases he; exact h
  | false =>
    rw [exec_enable hr] at he; cases he
    exact { h with not_both := by simp [hr] }

/-- COUNT is NOMINAL after a recording is stopped, and stays near it otherwise (R105). -/
theorem exec_disable_inv {s t : State} (h : s.Inv) (he : exec .cmdDisable s = .next t) : t.Inv := by
  cases hr : s.block.recFlag with
  | true =>
    simp only [exec, execCmdDisable, if_pos hr] at he; cases he
    exact { h with
      not_both := by simp
      count_le := h.nominal_le
      count_near := .inl rfl
      recording_written := by simp }
  | false =>
    rw [exec_disable hr] at he; cases he
    exact { h with not_both := by simp }

/-- The start sequence up to its USB write: a zeroed buffer, and two events with no length (R106 (a) to (c)). -/
theorem State.Inv.prepareSession {s : State} (h : s.Inv) : s.prepareSession.Inv := by
  have cleared : (s.setBlock { s.block with sr := false }).Inv := { h with not_both := by simp }
  exact (cleared.zeroFill.emit (ev := .fifoClear) trivial).emit (ev := .captureEnable) trivial

/-- A started session records with SR clear and every word of the buffer written (R106, R164). -/
theorem exec_service_inv {s t : State} (h : s.Inv) (he : exec .cmdService s = .next t) : t.Inv := by
  cases hs : s.block.sr with
  | true =>
    obtain ⟨ws, hw, rfl⟩ := (exec_service_pending hs).mp he
    exact { h.prepareSession.emit_payload hw with
      not_both := fun both => Bool.false_ne_true both.1
      recording_written := fun _ _ hi => Memory.zeros_written hi }
  | false => rw [exec_service_idle hs] at he; cases he; exact h

/-- The smaller of a value and the capacity is legal for NOMINAL (R29). -/
theorem toNat_capped_le (v capacity : Half) : (if v ≤ capacity then v else capacity).toNat ≤ capacity.toNat := by
  split
  · exact BitVec.le_def.mp ‹_›
  · exact Nat.le_refl _

/-- The value WR_NOMINAL stores is legal (R29, R110). -/
theorem State.legalNominal_le (s : State) (v : Half) : (s.legalNominal v).toNat ≤ s.capacity :=
  toNat_capped_le v s.params.capacity

theorem State.Inv.setNominal {s : State} (h : s.Inv) {v : Half} (hv : v.toNat ≤ s.capacity) :
    (s.setBlock { s.block with nominal := v, count := v }).Inv :=
  { h with nominal_le := hv, count_le := hv, count_near := .inl rfl }

theorem State.Inv.setStep {s : State} (h : s.Inv) (v : Half) :
    (s.setBlock { s.block with stepReg := v, count := s.block.nominal }).Inv :=
  { h with count_le := h.nominal_le, count_near := .inl rfl }

/-- Every operation keeps the invariant. Those left to the last case change the sticky bits or the answer only. -/
theorem exec_inv {i : Instr} {s t : State} (h : s.Inv) (he : exec i s = .next t) : t.Inv := by
  cases i with
  | cmdEnable => exact exec_enable_inv h he
  | cmdDisable => exact exec_disable_inv h he
  | cmdService => exact exec_service_inv h he
  | wrNominal d => cases he; exact h.configure (h.setNominal (s.legalNominal_le _))
  | wrStep d => cases he; exact h.configure (h.setStep _)
  | wrTrig d => cases he; exact h.configure { h with }
  | epDone err => exact exec_epDone_inv h he
  | dmaWr idx data => cases he; exact h.dmaWrite _ data
  | rsvdPort => cases he
  | rsvdClass => cases he
  | _ => cases he; exact { h with }

/-! ### Reset (R230, R191) -/

/-- The reset value of NOMINAL is legal (R29). -/
theorem nominalAtReset_le (p : Params) : (nominalAtReset p).toNat ≤ p.capacity.toNat :=
  toNat_capped_le p.nominalReset p.capacity

/-- A state whose block is at its reset values meets the invariant, with legal parameters and a bounded environment. -/
theorem State.inv_of_block_reset {s : State} (hp : s.params.legal = true) (hb : s.block = Block.reset s.params)
    (he : s.env.Bounded s.params) : s.Inv where
  params_legal := hp
  not_both := by simp [hb, Block.reset]
  nominal_le := by rw [hb]; exact nominalAtReset_le s.params
  count_le := by rw [hb]; exact nominalAtReset_le s.params
  count_near := by rw [hb]; exact .inl rfl
  buf_wf := by rw [hb]; exact List.Pairwise.nil
  buf_inside := by rw [hb]; exact fun _ hc => absurd hc List.not_mem_nil
  recording_written := by simp [hb, Block.reset]
  out_bounded := by rw [hb]; exact fun _ hev => absurd hev List.not_mem_nil
  fifo_le := he.fifo_le
  dma_inside := he.dma_inside
  inflight_bounded := he.inflight_bounded

/-- The reset input keeps the invariant, the collaborators reset with the block or not (R231, R233). -/
theorem State.Inv.applyReset {s : State} (h : s.Inv) (c : Bool) : (s.applyReset c).Inv := by
  refine State.inv_of_block_reset h.params_legal rfl ?_
  rw [State.applyReset_env]
  split
  · exact Env.reset_bounded s.params
  · exact h.env_bounded

theorem inv_keptByStepParts : KeptByStepParts State.Inv where
  beginEntry more h := h.beginEntry more
  present inp h := h.present inp
  exec h he := exec_inv h he
  push w h := h.setEnv (h.env_bounded.push w)
  beat h hrem := h.setEnv (h.env_bounded.beat hrem)
  dmaWrite i w h := h.dmaWrite i w
  completeUsb h := h.setEnv h.env_bounded.completeUsb
  applyReset c h := h.applyReset c

/-- Settles O44: each part of a step keeps the invariant, so a step does. -/
theorem stepKeepsTheInvariant : Obligations.StepKeepsTheInvariant :=
  fun _ _ hs h => inv_keptByStepParts.step hs h

/-- The parameters with the values R8 takes are legal, whatever the OPEN ones are. -/
theorem Params.standard_legal : Params.standard.legal = true := by
  have depth : BitVec.ofNat 16 (Config.openFifoDepthLessOne.val + 1) ≠ 0#16 := by
    have := Config.openFifoDepthLessOne.isLt
    intro e
    have := congrArg BitVec.toNat e
    simp only [BitVec.toNat_ofNat] at this
    omega
  simpa [Params.legal, Params.standard] using depth

/-- Settles O43: the block stands at its reset values, the environment is empty, and the standard parameters are legal. -/
theorem invariantHoldsAtReset : Obligations.InvariantHoldsAtReset :=
  ⟨State.inv_of_block_reset Params.standard_legal rfl (Env.reset_bounded _),
    fun p _ hp => State.inv_of_block_reset hp rfl (Env.reset_bounded p)⟩

end Sys2Proof.Machine

/-! The state family (10_state), second part: which operations move the session phase, the configuration, the output
log, the sticky bits and BAND. -/

namespace Sys2Proof.Machine

/-! ### The operations with more than one outcome, each outcome in one equation -/

/-- CMD_SERVICE does nothing, or starts the session (R106). -/
theorem exec_service_cases {s t : State} (h : exec .cmdService s = .next t) :
    (s.block.sr = false ∧ t = s) ∨ (s.block.sr = true ∧ t = { s with
      block := { s.block with sr := false, recFlag := true, buf := Memory.zeros s.capacity, out := t.block.out }
      env := t.env }) := by
  cases hs : s.block.sr with
  | true => exact .inr ⟨rfl, exec_service_frame hs h⟩
  | false => rw [exec_service_idle hs] at h; cases h; exact .inl ⟨rfl, rfl⟩

/-- The writes that the configuration lock guards (R41). -/
def WritesConfiguration (i : Instr) : Prop := ∃ d, i = .wrNominal d ∨ i = .wrStep d ∨ i = .wrTrig d

/-- A configuration write is accepted, and then changes the configuration and COUNT only, or raises CFG_LOCK (R41). -/
theorem exec_configuration_cases {i : Instr} {s t : State} (hi : WritesConfiguration i) (h : exec i s = .next t) :
    (s.block.idle = true ∧ t = s.setBlock { s.block with
      nominal := t.block.nominal, stepReg := t.block.stepReg, trig := t.block.trig, count := t.block.count }) ∨
    (s.block.idle = false ∧ t = s.raise .cfgLock) := by
  cases hidle : s.block.idle with
  | true =>
    left
    obtain ⟨d, rfl | rfl | rfl⟩ := hi
    all_goals
      cases h
      rw [State.configure_idle hidle]
      exact ⟨rfl, rfl⟩
  | false =>
    right
    obtain ⟨d, rfl | rfl | rfl⟩ := hi
    all_goals
      cases h
      rw [State.configure_locked hidle]
      exact ⟨rfl, rfl⟩

/-! ### The session phase (R24, R124) -/

theorem Block.session_eq_idle {b : Block} : b.session = 0b00#2 ↔ b.recFlag = false ∧ b.sr = false := by
  unfold Block.session
  cases b.recFlag <;> cases b.sr <;> decide

theorem Block.session_eq_starting {b : Block} : b.session = 0b01#2 ↔ b.recFlag = false ∧ b.sr = true := by
  unfold Block.session
  cases b.recFlag <;> cases b.sr <;> decide

theorem Block.session_eq_recording {b : Block} : b.session = 0b10#2 ↔ b.recFlag = true ∧ b.sr = false := by
  unfold Block.session
  cases b.recFlag <;> cases b.sr <;> decide

theorem Block.session_eq_both {b : Block} : b.session = 0b11#2 ↔ b.recFlag = true ∧ b.sr = true := by
  unfold Block.session
  cases b.recFlag <;> cases b.sr <;> decide

/-- ENABLE moves Idle to Starting and leaves the other phases. -/
theorem exec_enable_session {s t : State} (h : exec .cmdEnable s = .next t) :
    t.block.session = if s.block.session = 0b00#2 then 0b01#2 else s.block.session := by
  cases hr : s.block.recFlag with
  | true =>
    have not_idle : s.block.session ≠ 0b00#2 := fun e =>
      Bool.false_ne_true ((Block.session_eq_idle.mp e).1.symm.trans hr)
    rw [exec_enable_recording hr] at h; cases h
    rw [if_neg not_idle]
  | false =>
    rw [exec_enable hr] at h; cases h
    have starting : (s.setBlock { s.block with sr := true }).block.session = 0b01#2 :=
      Block.session_eq_starting.mpr ⟨hr, rfl⟩
    rw [starting]
    cases hs : s.block.sr with
    | true => rw [Block.session_eq_starting.mpr ⟨hr, hs⟩]; rfl
    | false => rw [if_pos (Block.session_eq_idle.mpr ⟨hr, hs⟩)]

/-- SERVICE moves Starting to Recording and leaves Idle and Recording. -/
theorem exec_service_session {s t : State} (h : exec .cmdService s = .next t) (hs : s.block.session ≠ 0b11#2) :
    t.block.session = if s.block.session = 0b01#2 then 0b10#2 else s.block.session := by
  rcases exec_service_cases h with ⟨hsr, rfl⟩ | ⟨hsr, e⟩
  · have not_starting : t.block.session ≠ 0b01#2 := fun e =>
      Bool.false_ne_true (hsr.symm.trans (Block.session_eq_starting.mp e).2)
    rw [if_neg not_starting]
  · have hr : s.block.recFlag = false := Bool.eq_false_iff.mpr fun hr => hs (Block.session_eq_both.mpr ⟨hr, hsr⟩)
    rw [if_pos (Block.session_eq_starting.mpr ⟨hr, hsr⟩), e]
    exact Block.session_eq_recording.mpr ⟨rfl, rfl⟩

@[simp] theorem State.dmaWrite_session (s : State) (i : Nat) (w : Word) :
    (s.dmaWrite i w).block.session = s.block.session := by
  rcases State.dmaWrite_cases s i w with ⟨-, e⟩ | ⟨-, e⟩ <;> rw [e] <;> rfl

/-- Settles O32, one operation after another: the three commands by their own lemmas, and the others because they write
neither flag. -/
theorem sessionMovesOnlyByItsTable : Obligations.SessionMovesOnlyByItsTable := by
  intro i s t h hs
  cases i with
  | cmdEnable => exact exec_enable_session h
  | cmdDisable => cases h; exact Block.session_eq_idle.mpr ⟨rfl, rfl⟩
  | cmdService => exact exec_service_session h hs
  | wrNominal d | wrStep d | wrTrig d =>
    rcases exec_configuration_cases ⟨d, by simp⟩ h with ⟨-, e⟩ | ⟨-, e⟩ <;> rw [e] <;> rfl
  | epDone err => rw [exec_epDone_frame h]; rfl
  | dmaWr idx data => cases h; exact State.dmaWrite_session s _ data
  | rsvdPort => cases h
  | rsvdClass => cases h
  | _ => cases h; rfl

/-- No operation makes SR and REC both 1: no row of R124's table ends in 0b11. -/
theorem exec_session_ne_both {i : Instr} {s t : State} (hs : s.block.session ≠ 0b11#2) (h : exec i s = .next t) :
    t.block.session ≠ 0b11#2 := by
  rw [sessionMovesOnlyByItsTable i s t h hs]
  split
  · split
    · decide
    · exact hs
  · decide
  · split
    · decide
    · exact hs
  · exact hs

theorem session_ne_both_keptByStepParts : KeptByStepParts fun s => s.block.session ≠ 0b11#2 where
  beginEntry _ h := h
  present _ h := h
  exec h he := exec_session_ne_both h he
  push _ h := h
  beat h _ := h
  dmaWrite i w h := by rwa [State.dmaWrite_session]
  completeUsb h := h
  applyReset _ _ := fun both => by cases (Block.session_eq_both.mp both).1

/-- Settles O33: both flags are 0 at reset, and no part of a step leads to 0b11. -/
theorem startAndRecordingNeverBoth : Obligations.StartAndRecordingNeverBoth := by
  refine ⟨fun p both => Bool.false_ne_true both.1, fun s t hs h both => ?_⟩
  have hs' : s.block.session ≠ 0b11#2 := fun e => hs (Block.session_eq_both.mp e).symm
  exact session_ne_both_keptByStepParts.step hs' h (Block.session_eq_both.mpr both.symm)

/-! ### The configuration (R41) -/

/-- Only a configuration write changes NOMINAL, STEP or TRIG. -/
theorem exec_keeps_configuration {i : Instr} {s t : State} (hi : ¬WritesConfiguration i) (h : exec i s = .next t) :
    t.block.nominal = s.block.nominal ∧ t.block.stepReg = s.block.stepReg ∧ t.block.trig = s.block.trig := by
  cases i with
  | wrNominal d | wrStep d | wrTrig d => exact absurd ⟨d, by simp⟩ hi
  | cmdEnable => cases h; split <;> exact ⟨rfl, rfl, rfl⟩
  | cmdService => rcases exec_service_cases h with ⟨-, e⟩ | ⟨-, e⟩ <;> rw [e] <;> exact ⟨rfl, rfl, rfl⟩
  | epDone err => rw [exec_epDone_frame h]; exact ⟨rfl, rfl, rfl⟩
  | dmaWr idx data =>
    cases h
    rcases State.dmaWrite_cases s (indexOf idx) data with ⟨-, e⟩ | ⟨-, e⟩ <;> rw [e] <;> exact ⟨rfl, rfl, rfl⟩
  | rsvdPort => cases h
  | rsvdClass => cases h
  | _ => cases h; exact ⟨rfl, rfl, rfl⟩

/-- Outside Idle a configuration write raises CFG_LOCK and does nothing else. -/
theorem exec_configuration_locked {i : Instr} {s t : State} (hs : s.block.session ≠ 0) (hi : WritesConfiguration i)
    (h : exec i s = .next t) : t = s.raise .cfgLock := by
  rcases exec_configuration_cases hi h with ⟨hidle, -⟩ | ⟨-, ht⟩
  · exact absurd (Block.session_eq_zero.mpr hidle) hs
  · exact ht

/-- Settles O36: a configuration write is locked out, and no other operation writes the configuration. -/
theorem configurationIsLockedOutsideIdle : Obligations.ConfigurationIsLockedOutsideIdle := by
  intro i s t h hs
  by_cases hi : WritesConfiguration i
  · rw [exec_configuration_locked hs hi h]
    exact ⟨rfl, rfl, rfl, fun _ => rfl⟩
  · obtain ⟨hnominal, hstep, htrig⟩ := exec_keeps_configuration hi h
    exact ⟨hnominal, hstep, htrig, fun hw => absurd hw hi⟩

/-! ### The output log (R37) -/

theorem State.emit_out_grows (s : State) (ev : Event) : s.block.out <+: (s.emit ev).block.out :=
  ⟨[ev], rfl⟩

theorem State.rearm_out_grows (s : State) : s.block.out <+: s.rearm.block.out := by
  rcases State.rearm_cases s with e | e
  · exact e ▸ s.emit_out_grows _
  · exact ⟨[], by rw [e, List.append_nil]⟩

/-- EP_DONE appends the USB write, if any, and the re-arm, if any (R130). -/
theorem exec_epDone_out_grows {s t : State} {err : Byte} (h : exec (.epDone err) s = .next t) :
    s.block.out <+: t.block.out := by
  obtain ⟨u, rfl, hu⟩ := exec_epDone_next h
  have rearmed : u.block.out <+: u.recount.rearm.block.out := by
    have := u.recount.rearm_out_grows
    rwa [State.recount_block] at this
  rcases hu with ⟨rfl, -⟩ | ⟨-, ws, -, rfl⟩
  · exact rearmed
  · exact (s.emit_out_grows _).trans rearmed

/-- SERVICE appends its three events, or nothing (R106). -/
theorem exec_service_out_grows {s t : State} (h : exec .cmdService s = .next t) : s.block.out <+: t.block.out := by
  cases hs : s.block.sr with
  | true =>
    obtain ⟨ws, -, rfl⟩ := (exec_service_pending hs).mp h
    exact (((s.setBlock { s.block with sr := false }).zeroFill.emit_out_grows .fifoClear).trans
      (State.emit_out_grows _ .captureEnable)).trans (State.emit_out_grows _ _)
  | false => rw [exec_service_idle hs] at h; cases h; exact ⟨[], List.append_nil _⟩

/-- Every operation but SERVICE and EP_DONE emits nothing: the log and the environment stay. -/
theorem exec_emits_nothing {i : Instr} {s t : State} (hv : i ≠ .cmdService) (hd : ∀ err, i ≠ .epDone err)
    (h : exec i s = .next t) : t.block.out = s.block.out ∧ t.env = s.env := by
  cases i with
  | cmdService => exact absurd rfl hv
  | epDone err => exact absurd rfl (hd err)
  | cmdEnable => cases h; split <;> exact ⟨rfl, rfl⟩
  | wrNominal d | wrStep d | wrTrig d =>
    rcases exec_configuration_cases ⟨d, by simp⟩ h with ⟨-, e⟩ | ⟨-, e⟩ <;> rw [e] <;> exact ⟨rfl, rfl⟩
  | dmaWr idx data =>
    cases h
    rcases State.dmaWrite_cases s (indexOf idx) data with ⟨-, e⟩ | ⟨-, e⟩ <;> rw [e] <;> exact ⟨rfl, rfl⟩
  | rsvdPort => cases h
  | rsvdClass => cases h
  | _ => cases h; exact ⟨rfl, rfl⟩

theorem exec_out_grows {i : Instr} {s t : State} (h : exec i s = .next t) : s.block.out <+: t.block.out := by
  by_cases hv : i = .cmdService
  · subst hv; exact exec_service_out_grows h
  · by_cases hd : ∃ err, i = .epDone err
    · obtain ⟨err, rfl⟩ := hd; exact exec_epDone_out_grows h
    · obtain ⟨hout, -⟩ := exec_emits_nothing hv (not_exists.mp hd) h
      exact ⟨[], by rw [hout, List.append_nil]⟩

/-- Settles O38: the two operations that emit append, and the others leave the log and the environment. -/
theorem outputLogOnlyGrows : Obligations.OutputLogOnlyGrows := by
  intro i s t h
  obtain ⟨added, e⟩ := exec_out_grows h
  exact ⟨⟨added, e.symm⟩, fun hv hd => exec_emits_nothing hv hd h⟩

/-! ### The sticky bits and BAND (R27, R28): what they are after an operation, and that only RD_STATUS reads them -/

/-- The sticky bits an operation leaves in `s` where it finds `k`: a cause of R201 sets its bit, and a STATUS write clears
those it names. -/
def stickyAfter (i : Instr) (s : State) (k : Sticky) : Sticky :=
  match i with
  | .cmdRsvd _ => k.set .badcmd
  | .busErrRd _ _ => k.set .buserr
  | .busErrWr _ _ _ => k.set .buserr
  | .wrStatus d => k.clear (clearMaskOf d)
  | .wrNominal _ => if s.block.idle then k else k.set .cfgLock
  | .wrStep _ => if s.block.idle then k else k.set .cfgLock
  | .wrTrig _ => if s.block.idle then k else k.set .cfgLock
  | .dmaWr idx _ => if indexOf idx < s.capacity then k else k.set .dmaOor
  | .epDone _ => if clampNeeded s.capacity s.candidate then k.set .clamp else k
  | _ => k

/-- The BAND an operation leaves in `s` where it finds `b` (R28). -/
def bandAfter (i : Instr) (s : State) (b : Band) : Band :=
  match i with
  | .epDone _ => s.verdict
  | _ => b

/-- The state with other sticky bits and another BAND. -/
def State.withStatus (s : State) (k : Sticky) (b : Band) : State :=
  s.setBlock { s.block with sticky := k, band := b }

theorem State.payload_withStatus (s : State) (k : Sticky) (b : Band) (n : Nat) :
    (s.withStatus k b).payload n = s.payload n :=
  State.payload_congr (s := s) (s' := s.withStatus k b) rfl rfl n

theorem State.rearm_withStatus (s : State) (k : Sticky) (b : Band) :
    (s.withStatus k b).rearm = s.rearm.withStatus k b := by
  cases h : s.block.recFlag || s.params.idleRearm with
  | true => rw [State.rearm_armed h, State.rearm_armed (s := s.withStatus k b) h]; rfl
  | false => rw [State.rearm_quiet h, State.rearm_quiet (s := s.withStatus k b) h]

theorem State.recount_withStatus (s : State) (k : Sticky) (b : Band) :
    (s.withStatus k b).recount =
      s.recount.withStatus (if clampNeeded s.capacity s.candidate then k.set .clamp else k) s.verdict := by
  rw [State.recount_eq, State.recount_eq]; rfl

theorem State.configure_withStatus (s : State) (k : Sticky) (b : Band) (accepted : Block) :
    (s.withStatus k b).configure { accepted with sticky := k, band := b } =
      (s.configure accepted).withStatus (if s.block.idle then k else k.set .cfgLock) b := by
  cases h : s.block.idle with
  | true => rw [State.configure_idle h, State.configure_idle (s := s.withStatus k b) h]; rfl
  | false => rw [State.configure_locked h, State.configure_locked (s := s.withStatus k b) h]; rfl

theorem State.dmaWrite_withStatus (s : State) (k : Sticky) (b : Band) (i : Nat) (w : Word) :
    (s.withStatus k b).dmaWrite i w =
      (s.dmaWrite i w).withStatus (if i < s.capacity then k else k.set .dmaOor) b := by
  by_cases h : i < s.capacity
  · rw [State.dmaWrite_inside h, State.dmaWrite_inside (s := s.withStatus k b) h, if_pos h]; rfl
  · have h' := Nat.le_of_not_lt h
    rw [State.dmaWrite_outside h', State.dmaWrite_outside (s := s.withStatus k b) h', if_neg h]; rfl

theorem exec_epDone_withStatus {s t : State} {err : Byte} (h : exec (.epDone err) s = .next t) (k : Sticky) (b : Band) :
    exec (.epDone err) (s.withStatus k b) =
      .next (t.withStatus (stickyAfter (.epDone err) s k) (bandAfter (.epDone err) s b)) := by
  cases hr : s.block.recFlag with
  | true =>
    obtain ⟨ws, hw, rfl⟩ := (exec_epDone_recording hr err).mp h
    refine (exec_epDone_recording (s := s.withStatus k b) hr err).mpr ⟨ws, ?_, ?_⟩
    · rw [State.payload_withStatus]; exact hw
    · have emitted : (s.withStatus k b).emit (.usbWrite s.block.count.toNat ws) =
          (s.emit (.usbWrite s.block.count.toNat ws)).withStatus k b := rfl
      have hcount : (s.withStatus k b).block.count = s.block.count := rfl
      rw [hcount, emitted, State.recount_withStatus, State.rearm_withStatus, State.candidate_emit_usbWrite,
        State.verdict_emit_usbWrite]
      rfl
  | false =>
    rw [exec_epDone_not_recording hr] at h; cases h
    rw [exec_epDone_not_recording (s := s.withStatus k b) hr, State.recount_withStatus, State.rearm_withStatus]
    rfl

/-- With other sticky bits and another BAND, every operation but the STATUS read has the same effect, those apart. -/
theorem exec_withStatus {i : Instr} {s t : State} (hi : i ≠ .rdStatus) (h : exec i s = .next t) (k : Sticky)
    (b : Band) : exec i (s.withStatus k b) = .next (t.withStatus (stickyAfter i s k) (bandAfter i s b)) := by
  cases i with
  | rdStatus => exact absurd rfl hi
  | cmdEnable =>
    cases hr : s.block.recFlag with
    | true =>
      rw [exec_enable_recording hr] at h; cases h
      exact exec_enable_recording (s := s.withStatus k b) hr
    | false => rw [exec_enable hr] at h; cases h; exact exec_enable (s := s.withStatus k b) hr
  | cmdService =>
    cases hs : s.block.sr with
    | true =>
      obtain ⟨ws, hw, rfl⟩ := (exec_service_pending hs).mp h
      exact (exec_service_pending (s := s.withStatus k b) hs).mpr
        ⟨ws, (State.payload_withStatus s.prepareSession k b _).trans hw, rfl⟩
    | false => rw [exec_service_idle hs] at h; cases h; exact exec_service_idle (s := s.withStatus k b) hs
  | wrNominal d =>
    cases h
    exact congrArg _ (s.configure_withStatus k b
      { s.block with nominal := s.legalNominal (valueOf d), count := s.legalNominal (valueOf d) })
  | wrStep d =>
    cases h
    exact congrArg _ (s.configure_withStatus k b { s.block with stepReg := valueOf d, count := s.block.nominal })
  | wrTrig d => cases h; exact congrArg _ (s.configure_withStatus k b { s.block with trig := valueOf d })
  | epDone err => exact exec_epDone_withStatus h k b
  | dmaWr idx data => cases h; exact congrArg _ (s.dmaWrite_withStatus k b _ data)
  | rsvdPort => cases h
  | rsvdClass => cases h
  | _ => cases h; rfl

/-- The sticky bits and BAND after an operation. -/
theorem exec_status {i : Instr} {s t : State} (h : exec i s = .next t) :
    t.block.sticky = stickyAfter i s s.block.sticky ∧ t.block.band = bandAfter i s s.block.band := by
  by_cases hi : i = .rdStatus
  · subst hi; cases h; exact ⟨rfl, rfl⟩
  · have same := exec_withStatus hi h s.block.sticky s.block.band
    have ht : t = t.withStatus (stickyAfter i s s.block.sticky) (bandAfter i s s.block.band) :=
      Host.Outcome.next.inj (h.symm.trans same)
    exact ⟨congrArg (·.block.sticky) ht, congrArg (·.block.band) ht⟩

/-- The operations in which each error cause can arise (R201). -/
def RaisesCause (i : Instr) (s : State) : ErrorCause → Prop
  | .clamp => ∃ err, i = .epDone err
  | .dmaOor => ∃ idx d, i = .dmaWr idx d ∧ s.params.capacity.toNat ≤ idx.toNat
  | .badcmd => ∃ d, i = .cmdRsvd d
  | .cfgLock => s.block.session ≠ 0 ∧ WritesConfiguration i
  | .buserr => ∃ size off, i = .busErrRd size off ∨ ∃ d, i = .busErrWr size off d

/-- An operation leaves the sticky bits, or sets the bit of one cause of its own, or is the clearing write. -/
theorem stickyAfter_cases (i : Instr) (s : State) (k : Sticky) :
    stickyAfter i s k = k ∨ (∃ c, RaisesCause i s c ∧ stickyAfter i s k = k.set c) ∨
      ∃ d, i = .wrStatus d ∧ stickyAfter i s k = k.clear (clearMaskOf d) := by
  cases i with
  | cmdRsvd d => exact .inr (.inl ⟨.badcmd, ⟨d, rfl⟩, rfl⟩)
  | busErrRd size off => exact .inr (.inl ⟨.buserr, ⟨size, off, .inl rfl⟩, rfl⟩)
  | busErrWr size off d => exact .inr (.inl ⟨.buserr, ⟨size, off, .inr ⟨d, rfl⟩⟩, rfl⟩)
  | wrStatus d => exact .inr (.inr ⟨d, rfl, rfl⟩)
  | wrNominal d | wrStep d | wrTrig d =>
    by_cases hidle : s.block.idle = true
    · exact .inl (if_pos hidle)
    · exact .inr (.inl ⟨.cfgLock, ⟨mt Block.session_eq_zero.mp hidle, d, by simp⟩, if_neg hidle⟩)
  | dmaWr idx d =>
    by_cases hin : indexOf idx < s.capacity
    · exact .inl (if_pos hin)
    · exact .inr (.inl ⟨.dmaOor, ⟨idx, d, rfl, Nat.le_of_not_lt hin⟩, if_neg hin⟩)
  | epDone err =>
    by_cases hc : clampNeeded s.capacity s.candidate = true
    · exact .inr (.inl ⟨.clamp, ⟨err, rfl⟩, if_pos hc⟩)
    · exact .inl (if_neg hc)
  | _ => exact .inl rfl

/-- A sticky bit that an operation sets is one of a cause of its own. -/
theorem raisesCause_of_set {i : Instr} {s : State} {k : Sticky} {c : ErrorCause} (before : k.get c = false)
    (after : (stickyAfter i s k).get c = true) : RaisesCause i s c := by
  rcases stickyAfter_cases i s k with e | ⟨c', hc, e⟩ | ⟨d, -, e⟩ <;> rw [e] at after
  · simp [before] at after
  · have hcc : c = c' := by simpa [before] using after
    exact hcc ▸ hc
  · simp [Sticky.get_clear, before] at after

/-- A sticky bit that an operation clears is named by a STATUS write (R109). -/
theorem statusWrite_of_cleared {i : Instr} {s : State} {k : Sticky} {c : ErrorCause} (before : k.get c = true)
    (after : (stickyAfter i s k).get c = false) : ∃ d, i = .wrStatus d ∧ d.getLsbD c.bit = true := by
  rcases stickyAfter_cases i s k with e | ⟨c', -, e⟩ | ⟨d, hi, e⟩ <;> rw [e] at after
  · simp [before] at after
  · simp [before] at after
  · refine ⟨d, hi, ?_⟩
    rw [Sticky.get_clear, getLsbD_clearMaskOf] at after
    simpa [before] using after

/-- Settles O34: `stickyAfter` says how the bits move, and only RD_STATUS reads them. -/
theorem stickyBitsMoveOnlyByTheirCauses : Obligations.StickyBitsMoveOnlyByTheirCauses := by
  intro i s t c h
  obtain ⟨hsticky, hband⟩ := exec_status h
  refine ⟨fun before after => ?_, fun before after => ?_, fun k hi => ?_⟩
  · have cause : RaisesCause i s c := raisesCause_of_set before (hsticky ▸ after)
    cases c <;> exact cause
  · exact statusWrite_of_cleared before (hsticky ▸ after)
  · refine ⟨_, exec_withStatus hi h k s.block.band, ?_⟩
    rw [← hband]; rfl

/-- Settles O37: `bandAfter` is the BAND found but for EP_DONE, and only RD_STATUS reads it. -/
theorem bandIsAStatusMirror : Obligations.BandIsAStatusMirror := by
  intro i s t b h
  obtain ⟨hsticky, hband⟩ := exec_status h
  refine ⟨fun hd => hband.trans ?_, fun hi => ⟨_, exec_withStatus hi h s.block.sticky b, ?_⟩⟩
  · cases i with
    | epDone err => exact absurd rfl (hd err)
    | _ => rfl
  · rw [← hsticky]; rfl

end Sys2Proof.Machine

/-! The memory family (20_memory): which host accesses name a register (R62), and a host operation repeated at once
(R64). -/

namespace Sys2Proof.Machine

/-! ### The admitted host accesses (R62, R81, R84) -/

/-- An access names a register exactly where it is a word access to the offset of one of the eight. -/
theorem namesRegister_iff_offset {z : Size} {off : Offset} :
    namesRegister z off = true ↔ z = .word ∧ ∃ r : Reg, off = r.offset := by
  constructor
  · intro h
    obtain ⟨hz, hoff⟩ := eq_offset_of_namesRegister h
    exact ⟨hz, _, hoff⟩
  · rintro ⟨rfl, r, rfl⟩
    exact namesRegister_offset r

/-- A bus-error access is well formed exactly where it names no register, which is the test the decoder makes. -/
theorem wf_busErr_of_not_namesRegister {z : Size} {off : Offset} (h : ¬namesRegister z off = true) :
    (!registerAccess z off) = true := by
  rw [← namesRegister_eq, Bool.eq_false_iff.mpr h, Bool.not_false]

/-- A read that names no register spells a bus-error read. -/
theorem spells_busErrRd {z : Size} {off : Offset} (h : ¬namesRegister z off = true) :
    Spells (spellAccess z off none) (.busErrRd z off) := by
  have := Laws.RoundTrip.busErrRd z off (wf_busErr_of_not_namesRegister h) []
  rwa [List.append_nil] at this

/-- A write that names no register spells a bus-error write. -/
theorem spells_busErrWr {z : Size} {off : Offset} (h : ¬namesRegister z off = true) (d : Word) :
    Spells (spellAccess z off (some d)) (.busErrWr z off d) := by
  have := Laws.RoundTrip.busErrWr z off d (wf_busErr_of_not_namesRegister h) []
  rwa [List.append_nil] at this

/-- Settles O5: the decoder's test, R62's wording of it and the list of R84 are one condition, and an access that fails
it is a well-formed bus-error access. -/
theorem onlyMappedWordAccessesNameRegisters : Obligations.OnlyMappedWordAccessesNameRegisters := by
  intro size off d
  refine ⟨fun r => ⟨decode_spellAccess_read r, decode_spellAccess_write r d⟩, ?_, fun unmapped => ?_⟩
  · exact namesRegister_iff.symm.trans namesRegister_iff_offset
  · have names_none : ¬namesRegister size off = true := mt namesRegister_iff.mp unmapped
    exact ⟨spells_busErrRd names_none, spells_busErrWr names_none d⟩

/-! ### A host operation repeated at once (R64) -/

/-- Clearing twice by one mask clears once (R109). -/
@[simp] theorem Sticky.clear_clear (k : Sticky) (mask : BitVec 5) : (k.clear mask).clear mask = k.clear mask := by
  apply Sticky.ext_get
  intro c
  rw [Sticky.get_clear, Sticky.get_clear, Bool.and_assoc, Bool.and_self]

/-- Raising a cause that is raised changes nothing (R27). -/
@[simp] theorem State.raise_raise (s : State) (c : ErrorCause) : (s.raise c).raise c = s.raise c := by
  cases c <;> rfl

/-- ENABLE repeated finds SR set or a recording running (R104). -/
theorem exec_enable_again {s t : State} (h : exec .cmdEnable s = .next t) : exec .cmdEnable t = .next t := by
  cases hr : s.block.recFlag with
  | true => rw [exec_enable_recording hr] at h; cases h; exact exec_enable_recording hr
  | false => rw [exec_enable hr] at h; cases h; exact exec_enable hr

/-- DISABLE repeated finds no recording, so it keeps COUNT (R105). -/
theorem exec_disable_again {s t : State} (h : exec .cmdDisable s = .next t) : exec .cmdDisable t = .next t := by
  cases h; exact exec_disable rfl

/-- SERVICE repeated finds no start request: it answered with SR clear (R106). -/
theorem exec_service_again {s t : State} (h : exec .cmdService s = .next t) : exec .cmdService t = .next t := by
  rcases exec_service_cases h with ⟨hsr, rfl⟩ | ⟨-, e⟩
  · exact h
  · have cleared : t.block.sr = false := by rw [e]
    exact exec_service_idle cleared

/-- A configuration write repeated finds the session phase it found first: accepted, it stores the same values again;
locked out, it raises CFG_LOCK again (R41). -/
theorem exec_configuration_again {i : Instr} {s t : State} (hi : WritesConfiguration i) (h : exec i s = .next t) :
    exec i t = .next t := by
  cases hidle : s.block.idle with
  | true =>
    obtain ⟨d, rfl | rfl | rfl⟩ := hi
    all_goals
      cases h
      rw [State.configure_idle hidle]
      refine congrArg Host.Outcome.next (State.configure_idle (s := s.setBlock _) ?_ _)
      exact hidle
  | false =>
    have locked : (s.raise .cfgLock).block.idle = false := hidle
    obtain ⟨d, rfl | rfl | rfl⟩ := hi
    all_goals
      cases h
      rw [State.configure_locked hidle]
      exact congrArg Host.Outcome.next ((State.configure_locked locked _).trans (s.raise_raise .cfgLock))

/-- Settles O56, one operation after another. Those left to the last case read a register, whose value the answer
leaves, or change nothing at all. -/
theorem repeatedHostOperationChangesNothingMore : Obligations.RepeatedHostOperationChangesNothingMore := by
  intro i s t not_epDone not_dmaWr h
  cases i with
  | epDone err => exact absurd rfl (not_epDone err)
  | dmaWr idx d => exact absurd rfl (not_dmaWr idx d)
  | cmdEnable => exact exec_enable_again h
  | cmdDisable => exact exec_disable_again h
  | cmdService => exact exec_service_again h
  | wrNominal d | wrStep d | wrTrig d => exact exec_configuration_again ⟨d, by simp⟩ h
  | wrStatus d =>
    cases h
    exact congrArg (fun k => Host.Outcome.next (s.setBlock { s.block with sticky := k })) (Sticky.clear_clear _ _)
  | cmdRsvd d => cases h; exact congrArg Host.Outcome.next (s.raise_raise .badcmd)
  | busErrRd size off => cases h; exact congrArg (fun u => Host.Outcome.next (u.answer 0#32)) (s.raise_raise .buserr)
  | busErrWr size off d => cases h; exact congrArg Host.Outcome.next (s.raise_raise .buserr)
  | rsvdPort port low => cases h
  | rsvdClass rest => cases h
  | _ => cases h; rfl

end Sys2Proof.Machine

/-! The encoding family (30_encoding): the decoder and the encoder are inverse to each other, the header fixes what the
decoder takes, and a step runs the transaction it is given. -/

namespace Sys2Proof

/-! ### Reads and writes: the decoder's answer spells its own header (R81, R86) -/

/-- A read header with no payload. -/
theorem decodeHeader_hostRd {h : Half} (c : headerClass h = .hostRd) (rest : List Byte) :
    decodeHeader h rest = .ok (decodeRead (headerSize h) (headerOffset h), rest) := by
  unfold decodeHeader; rw [c]

/-- A write header takes four bytes, and answers only where they are there. -/
theorem decodeHeader_hostWr {h : Half} (c : headerClass h = .hostWr) {payload : List Byte} {i : Instr}
    {rest : List Byte} : decodeHeader h payload = .ok (i, rest) ↔
      ∃ d, payload = wordBytes d ++ rest ∧ i = decodeWrite (headerSize h) (headerOffset h) d := by
  unfold decodeHeader
  rw [c]
  constructor
  · intro e
    dsimp only at e
    split at e
    case h_1 d3 d2 d1 d0 more =>
      cases e
      exact ⟨wordOf d3 d2 d1 d0, by simp, rfl⟩
    case h_2 => cases e
  · rintro ⟨d, rfl, rfl⟩
    simp [wordBytes]

theorem wf_decodeRead (z : Size) (off : Offset) : (decodeRead z off).wf = true := by
  unfold decodeRead
  split
  · exact wf_readOf _
  · exact Machine.wf_busErr_of_not_namesRegister ‹_›

theorem wf_decodeWrite (z : Size) (off : Offset) (d : Word) : (decodeWrite z off d).wf = true := by
  unfold decodeWrite
  split
  · exact wf_writeOf _ d
  · exact Machine.wf_busErr_of_not_namesRegister ‹_›

theorem encode_decodeRead (z : Size) (off : Offset) : encode (decodeRead z off) = spellAccess z off none := by
  unfold decodeRead
  split
  next names =>
    obtain ⟨rfl, r, rfl⟩ := Machine.namesRegister_iff_offset.mp names
    rw [Reg.ofOffset_offset]
    exact encode_readOf r
  next => rfl

theorem encode_decodeWrite (z : Size) (off : Offset) (d : Word) :
    encode (decodeWrite z off d) = spellAccess z off (some d) := by
  unfold decodeWrite
  split
  next names =>
    obtain ⟨rfl, r, rfl⟩ := Machine.namesRegister_iff_offset.mp names
    rw [Reg.ofOffset_offset]
    exact encode_writeOf r d
  next => rfl

/-- The access a read header's fields describe has that header. -/
theorem spellAccess_hostRd {h : Half} (c : headerClass h = .hostRd) :
    spellAccess (headerSize h) (headerOffset h) none = halfBytes h := by
  rw [spellAccess, ← headerClass_eq_hostRd.mp c, hostHeader_fields]

/-- The access a write header's fields and its data describe has that header and those data. -/
theorem spellAccess_hostWr {h : Half} (c : headerClass h = .hostWr) (d : Word) :
    spellAccess (headerSize h) (headerOffset h) (some d) = halfBytes h ++ wordBytes d := by
  rw [spellAccess, ← headerClass_eq_hostWr.mp c, hostHeader_fields]

/-! ### Port headers and reserved headers (R82, R88, R89) -/

/-- A port header is told by its two other fields. -/
theorem portHeader_eq {h : Half} (c : headerClass h = .port) : h = 0b10#2 ++ headerPort h ++ headerLow h := by
  rw [← headerClass_eq_port.mp c, portHeader_fields]

theorem encode_rsvdPort_fields {h : Half} (c : headerClass h = .port) :
    encode (.rsvdPort (headerPort h) (headerLow h)) = halfBytes h := by
  rw [encode, ← portHeader_eq c]

theorem encode_rsvdClass_fields {h : Half} (c : headerClass h = .reserved) :
    encode (.rsvdClass (h.extractLsb' 0 14)) = halfBytes h := by
  rw [encode, ← headerClass_eq_reserved.mp c, reservedHeader_fields]

/-- The fields of a port header that is neither event's are those of a reserved port operation. -/
theorem wf_rsvdPort_fields {h : Half} (c : headerClass h = .port) (not_epDone : h ≠ 0x8000#16)
    (not_dmaWr : h ≠ 0x8100#16) : (Instr.rsvdPort (headerPort h) (headerLow h)).wf = true := by
  rw [Instr.wf, Bool.or_eq_true, decide_eq_true_eq, bne_iff_ne]
  have fields := portHeader_eq c
  by_cases low : headerLow h = 0
  · left
    rw [low] at fields
    have not_port0 : headerPort h ≠ 0#6 := fun port => not_epDone (by rw [port] at fields; exact fields)
    have not_port1 : headerPort h ≠ 1#6 := fun port => not_dmaWr (by rw [port] at fields; exact fields)
    bv_omega
  · exact .inr low

/-- A reserved port header decodes alone (R89, log 7). -/
theorem decode_rsvdPort {h : Half} (c : headerClass h = .port)
    (wf : (Instr.rsvdPort (headerPort h) (headerLow h)).wf = true) (rest : List Byte) :
    decode (halfBytes h ++ rest) = .ok (.rsvdPort (headerPort h) (headerLow h), rest) := by
  rw [← encode_rsvdPort_fields c]
  exact Laws.RoundTrip.rsvdPort _ _ wf rest

/-- A reserved class header decodes alone (R88, log 7). -/
theorem decode_rsvdClass {h : Half} (c : headerClass h = .reserved) (rest : List Byte) :
    decode (halfBytes h ++ rest) = .ok (.rsvdClass (h.extractLsb' 0 14), rest) := by
  rw [decode_halfBytes, decodeHeader_reserved c]

/-- Everything the decoder can answer on a port header: one of the two events with its payload, or the reserved
verdict on the header alone. -/
theorem decodePort_cases {h : Half} (c : headerClass h = .port) {payload : List Byte} {i : Instr} {rest : List Byte}
    (e : decodePort h payload = .ok (i, rest)) :
    (h = 0x8000#16 ∧ ∃ err, i = .epDone err ∧ payload = err :: rest) ∨
      (h = 0x8100#16 ∧ ∃ idx d, i = .dmaWr idx d ∧ payload = halfBytes idx ++ wordBytes d ++ rest) ∨
      (h ≠ 0x8000#16 ∧ h ≠ 0x8100#16 ∧ i = .rsvdPort (headerPort h) (headerLow h) ∧ payload = rest) := by
  by_cases epDone : h = 0x8000#16
  · subst epDone
    cases payload with
    | nil => cases e
    | cons err more => cases e; exact .inl ⟨rfl, err, rfl, rfl⟩
  by_cases dmaWr : h = 0x8100#16
  · subst dmaWr
    match payload, e with
    | i1 :: i0 :: d3 :: d2 :: d1 :: d0 :: more, e =>
      cases e
      exact .inr (.inl ⟨rfl, halfOf i1 i0, wordOf d3 d2 d1 d0, rfl, by simp⟩)
  have reserved := decode_rsvdPort c (wf_rsvdPort_fields c epDone dmaWr) payload
  rw [decode_halfBytes, decodeHeader_port c, e] at reserved
  cases reserved
  exact .inr (.inr ⟨epDone, dmaWr, rfl, rfl⟩)

/-! ### The two round trips (R80, R86) -/

/-- What the decoder answers on a header and its payload is well formed, and they are its transaction and the rest. -/
theorem decodeHeader_spelling {h : Half} {payload : List Byte} {i : Instr} {rest : List Byte}
    (e : decodeHeader h payload = .ok (i, rest)) : i.wf = true ∧ halfBytes h ++ payload = encode i ++ rest := by
  cases c : headerClass h with
  | hostRd =>
    rw [decodeHeader_hostRd c] at e
    cases e
    exact ⟨wf_decodeRead _ _, by rw [encode_decodeRead, spellAccess_hostRd c]⟩
  | hostWr =>
    obtain ⟨d, rfl, rfl⟩ := (decodeHeader_hostWr c).mp e
    exact ⟨wf_decodeWrite _ _ d, by rw [encode_decodeWrite, spellAccess_hostWr c, List.append_assoc]⟩
  | port =>
    rw [decodeHeader_port c] at e
    rcases decodePort_cases c e with
      ⟨rfl, err, rfl, rfl⟩ | ⟨rfl, idx, d, rfl, rfl⟩ | ⟨not_ep, not_dma, rfl, rfl⟩
    · exact ⟨rfl, rfl⟩
    · exact ⟨rfl, rfl⟩
    · exact ⟨wf_rsvdPort_fields c not_ep not_dma, by rw [encode_rsvdPort_fields c]⟩
  | reserved =>
    rw [decodeHeader_reserved c] at e
    cases e
    exact ⟨rfl, by rw [encode_rsvdClass_fields c]⟩

/-- Bytes that decode begin with a header. -/
theorem decode_eq_ok {bytes : List Byte} {p : Instr × List Byte} (e : decode bytes = .ok p) :
    ∃ h payload, bytes = halfBytes h ++ payload ∧ decodeHeader h payload = .ok p := by
  match bytes, e with
  | h1 :: h0 :: payload, e => exact ⟨halfOf h1 h0, payload, by simp, e⟩

/-- Settles O2: whatever class the header has, the decoder's answer spells the header and the payload it took. -/
theorem decodedBytesAreTheEncoding : Obligations.DecodedBytesAreTheEncoding := by
  intro bytes i rest decoded
  obtain ⟨h, payload, rfl, e⟩ := decode_eq_ok decoded
  exact decodeHeader_spelling e

/-- Settles O1 by the round trip of each operation. -/
theorem decodeInvertsEncode : Obligations.DecodeInvertsEncode := by
  intro i rest wf
  open Laws.RoundTrip in
  cases i with
  | rdCmd => exact rdCmd wf rest
  | rdStatus => exact rdStatus wf rest
  | rdNominal => exact rdNominal wf rest
  | rdStep => exact rdStep wf rest
  | rdTrig => exact rdTrig wf rest
  | rdCount => exact rdCount wf rest
  | rdLevel => exact rdLevel wf rest
  | rdCapacity => exact rdCapacity wf rest
  | cmdNop => exact cmdNop wf rest
  | cmdEnable => exact cmdEnable wf rest
  | cmdDisable => exact cmdDisable wf rest
  | cmdService => exact cmdService wf rest
  | cmdRsvd d => exact cmdRsvd d wf rest
  | wrStatus d => exact wrStatus d wf rest
  | wrNominal d => exact wrNominal d wf rest
  | wrStep d => exact wrStep d wf rest
  | wrTrig d => exact wrTrig d wf rest
  | wrCount d => exact wrCount d wf rest
  | wrLevel d => exact wrLevel d wf rest
  | wrCapacity d => exact wrCapacity d wf rest
  | busErrRd z off => exact busErrRd z off wf rest
  | busErrWr z off d => exact busErrWr z off d wf rest
  | epDone err => exact epDone err wf rest
  | dmaWr idx d => exact dmaWr idx d wf rest
  | rsvdPort port low => exact rsvdPort port low wf rest
  | rsvdClass r => exact rsvdClass r wf rest

/-! ### The length a header fixes (R80) -/

/-- Settles O4: one clause for each header class, the port class split into the two events and the reserved headers. -/
theorem headerFixesTheLength : Obligations.HeaderFixesTheLength := by
  intro h payload
  refine ⟨fun c => ?_, fun c d => ?_, ?_, ?_, fun c not_ep not_dma => ?_, fun c => ?_⟩
  · exact ⟨_, (decode_halfBytes h payload).trans (decodeHeader_hostRd c payload)⟩
  · exact ⟨_, (decode_halfBytes h _).trans ((decodeHeader_hostWr c).mpr ⟨d, rfl, rfl⟩)⟩
  · rintro rfl err
    exact Laws.RoundTrip.epDone err rfl payload
  · rintro rfl idx d
    rw [← List.append_assoc]
    exact Laws.RoundTrip.dmaWr idx d rfl payload
  · exact decode_rsvdPort c (wf_rsvdPort_fields c not_ep not_dma) payload
  · exact ⟨_, decode_rsvdClass c payload⟩

/-- A table word lays out exactly the payload its header fixes, so it decodes with nothing left (log 11). -/
theorem decode_tableBytes (nbits w : Nat) : ∃ i, decode (tableBytes nbits w) = .ok (i, []) := by
  unfold tableBytes
  dsimp only
  generalize BitVec.ofNat 64 (w % 2 ^ nbits) = v
  generalize v.extractLsb' 0 16 = h
  obtain ⟨read, write, epDone, dmaWr, rsvdPort, rsvdClass⟩ := headerFixesTheLength h []
  cases c : headerClass h with
  | hostRd => exact read c
  | hostWr =>
    dsimp only
    rw [← List.append_nil (wordBytes _)]
    exact write c _
  | reserved =>
    obtain ⟨r, alone⟩ := rsvdClass c
    exact ⟨_, alone⟩
  | port =>
    dsimp only
    by_cases is_epDone : h = 0x8000#16
    · rw [if_pos is_epDone]
      exact ⟨_, epDone is_epDone _⟩
    by_cases is_dmaWr : h = 0x8100#16
    · rw [if_neg is_epDone, if_pos is_dmaWr, ← List.append_nil (halfBytes _ ++ wordBytes _)]
      exact ⟨_, dmaWr is_dmaWr _ _⟩
    · rw [if_neg is_epDone, if_neg is_dmaWr]
      exact ⟨_, rsvdPort c is_epDone is_dmaWr⟩

end Sys2Proof

namespace Sys2Proof.Machine

/-! ### Command words (R85) -/

/-- A write to CMD spells the command of its data word. -/
theorem spells_commandOf (d : Word) : Spells (halfBytes 0x6000 ++ wordBytes d) (commandOf d) :=
  decode_spellAccess_write .cmd d

/-- Settles O6: the four words by their commands, any other by the test that comes first. -/
theorem commandWordsDecode : Obligations.CommandWordsDecode := by
  intro d
  refine ⟨?_, ?_, ?_, ?_, fun is_reserved => ?_⟩
  case refine_5 =>
    have rsvd : commandOf d = .cmdRsvd d := by rw [commandOf, if_pos is_reserved]
    exact rsvd ▸ spells_commandOf d
  all_goals
    rintro rfl
    exact spells_commandOf _

/-- Settles O3, evaluating the decoder on each word. -/
theorem specTransactionsDecode : Obligations.SpecTransactionsDecode :=
  ⟨rfl, rfl, rfl, rfl, rfl, rfl, rfl, rfl⟩

/-! ### A step runs the transaction presented (R63, R86) -/

/-- A step with a transaction presented is the effect of the operation its bytes spell (logs 1 to 3). -/
theorem step_txn_of_decode {s : State} {inp : Inputs} {bytes : List Byte} {more : List Stimulus} {i : Instr}
    (presented : s.agenda = .txn inp bytes :: more) (e : decode bytes = .ok (i, [])) :
    step s = exec i { s with agenda := more, readData := none, inputs := inp } := by
  rw [step_cons presented]
  exact State.runTransaction_of_decode e

/-- A step with a header presented that is a transaction by itself. -/
theorem step_header_alone {h : Half} {i : Instr} (alone : ∀ rest, decode (halfBytes h ++ rest) = .ok (i, rest))
    (s : State) (inp : Inputs) (more : List Stimulus) :
    step { s with agenda := .txn inp (halfBytes h) :: more } =
      exec i { s with agenda := more, readData := none, inputs := inp } := by
  have whole := alone []
  rw [List.append_nil] at whole
  exact step_txn_of_decode rfl whole

/-- Settles O8: what decodes is well formed (O2), and the step is that operation's effect. -/
theorem stepRunsTheDecodedTransaction : Obligations.StepRunsTheDecodedTransaction := by
  intro s inp bytes more i presented e
  obtain ⟨wf, -⟩ := decodedBytesAreTheEncoding bytes i [] e
  exact ⟨wf, step_txn_of_decode presented e⟩

/-- A table word that reads as an operation is its whole transaction. -/
theorem decode_of_decodeTableWord {nbits w : Nat} {i : Instr} (e : decodeTableWord nbits w = some i) :
    decode (tableBytes nbits w) = .ok (i, []) := by
  obtain ⟨j, decoded⟩ := decode_tableBytes nbits w
  rw [decodeTableWord, decoded] at e
  cases e
  exact decoded

/-- Settles O9: the word placed next is presented with the inputs that stand, so only the read-data port changes. -/
theorem placedTableWordRunsNext : Obligations.PlacedTableWordRunsNext := by
  intro s nbits w i e
  exact step_txn_of_decode rfl (decode_of_decodeTableWord e)

/-! ### The reserved verdicts (R88, R89) -/

/-- The machine has no step for an operation of the reserved class. -/
theorem exec_rsvdClass (r : BitVec 14) (s : State) : exec (.rsvdClass r) s = .refused .reservedClass := rfl

/-- The machine has no step for a reserved port operation. -/
theorem exec_rsvdPort (p : BitVec 6) (low : Byte) (s : State) : exec (.rsvdPort p low) s = .refused .reservedPort := rfl

/-- Settles O30: the header is the whole transaction of RSVD_CLASS, which is refused. -/
theorem reservedClassIsRefused : Obligations.ReservedClassIsRefused := by
  intro h r s
  refine ⟨exec_rsvdClass r s, fun c => ?_, fun c inp more => ?_⟩
  · exact decode_rsvdClass (headerClass_eq_reserved.mpr c)
  · rw [step_header_alone (decode_rsvdClass (headerClass_eq_reserved.mpr c)), exec_rsvdClass]

/-- Settles O31: either cause makes the header's fields those of RSVD_PORT, whose whole transaction it is. -/
theorem reservedPortIsRefused : Obligations.ReservedPortIsRefused := by
  intro h p low s
  refine ⟨exec_rsvdPort p low s, fun c cause => ?_⟩
  have wf : (Instr.rsvdPort (headerPort h) (headerLow h)).wf = true := by
    rwa [Instr.wf, Bool.or_eq_true, decide_eq_true_eq, bne_iff_ne]
  have alone := decode_rsvdPort (headerClass_eq_port.mpr c) wf
  refine ⟨alone, fun inp more => ?_⟩
  rw [step_header_alone alone, exec_rsvdPort]

/-! ### The pseudo-operations (R93) -/

/-- A STATUS write clears the sticky bits its data word names, bit by bit (R109). -/
theorem Sticky.get_clear_clearMaskOf (k : Sticky) (d : Word) (c : ErrorCause) :
    (k.clear (clearMaskOf d)).get c = (k.get c && !d.getLsbD c.bit) := by
  rw [Sticky.get_clear, getLsbD_clearMaskOf]

/-- The data word of clrerr names every error cause. -/
theorem Sticky.clear_clrerr (k : Sticky) : k.clear (clearMaskOf 0x1F00#32) = Sticky.reset := by
  apply Sticky.ext_get
  intro c
  have named : (0x1F00#32).getLsbD c.bit = true := by cases c <;> rfl
  have clear : Sticky.reset.get c = false := by cases c <;> rfl
  rw [Sticky.get_clear_clearMaskOf, named, clear, Bool.not_true, Bool.and_false]

/-- The data word of `clr F` names F only. -/
theorem getLsbD_clr (f c : ErrorCause) : (1#32 <<< f.bit).getLsbD c.bit = decide (c = f) := by
  cases f <;> cases c <;> rfl

/-- Settles O7: the bytes by evaluation, the cleared bits by the causes each data word names. -/
theorem pseudoOperationsExpand : Obligations.PseudoOperationsExpand := by
  refine ⟨rfl, rfl, rfl, rfl, rfl, ?_, fun s => ⟨rfl, ?_⟩, fun f s => ⟨1#32 <<< f.bit, _, ?_, rfl, fun c => ?_⟩⟩
  · intro f
    cases f <;> rfl
  · exact congrArg (fun k => Host.Outcome.next (s.setBlock { s.block with sticky := k })) (Sticky.clear_clrerr _)
  · exact decode_spellAccess_write .status _
  · have cleared := Sticky.get_clear_clearMaskOf s.block.sticky (1#32 <<< f.bit) c
    rwa [getLsbD_clr, ← decide_not] at cleared

end Sys2Proof.Machine

/-! The host operations family (40_host_ops): what each read, command and register write answers and changes, that each
completes, and sequences of commands. -/

namespace Sys2Proof.Machine

/-! ### SERVICE (R106) -/

/-- Of the two answers to a USB_WRITE only a refusal enters the history (R187). -/
theorem Env.takeUsb_history (e : Env) (a : Bool) (n : Nat) (ws : List Word) :
    (e.takeUsb a n ws).history = if a then e.history else e.history ++ [.usbRejected] := by
  unfold Env.takeUsb; split <;> rfl

/-- The state after a started session: the start sequence, its USB_WRITE of COUNT zero words, the promotion. -/
def State.sessionStarted (s : State) : State :=
  (s.prepareSession.emit (.usbWrite s.block.count.toNat (List.replicate s.block.count.toNat 0#32))).beginRecording

/-- SERVICE with a request pending and COUNT within the buffer starts the session. -/
theorem exec_service_started {s : State} (hs : s.block.sr = true) (hc : s.block.count.toNat ≤ s.capacity) :
    exec .cmdService s = .next s.sessionStarted :=
  (exec_service_pending hs).mpr ⟨_, State.payload_prepareSession hc, rfl⟩

theorem State.sessionStarted_buf (s : State) : s.sessionStarted.block.buf = Memory.zeros s.capacity := rfl

/-- The three events of the start sequence, in its order. -/
theorem State.sessionStarted_out (s : State) : s.sessionStarted.block.out = s.block.out ++ [.fifoClear, .captureEnable,
    .usbWrite s.block.count.toNat (List.replicate s.block.count.toNat 0#32)] := by
  have emitted : s.sessionStarted.block.out = s.block.out ++ [.fifoClear] ++ [.captureEnable] ++
      [.usbWrite s.block.count.toNat (List.replicate s.block.count.toNat 0#32)] := rfl
  rw [emitted, List.append_assoc, List.append_assoc]
  rfl

/-- The collaborators' responses to the three events (R183, R184, R187). -/
theorem State.sessionStarted_env (s : State) : s.sessionStarted.env = s.env.clearFifo.enableCapture.takeUsb
    s.inputs.accept s.block.count.toNat (List.replicate s.block.count.toNat 0#32) := rfl

/-- Settles O18: the started session field by field, its environment by the three responses. -/
theorem serviceStartsTheSession : Obligations.ServiceStartsTheSession := by
  intro s
  refine ⟨decode_spellAccess_write .cmd 3#32, exec_service_idle, fun hs hc =>
    ⟨s.sessionStarted, exec_service_started hs hc, rfl, rfl, fun i hi => ?_, fun inside i hi => ?_,
      s.sessionStarted_out, ?_, ?_, fun accepted => ?_, fun refused => ?_, ?_, ?_, rfl⟩⟩
  · rw [State.sessionStarted_buf, Memory.read_zeros, if_pos hi]; rfl
  · rw [State.sessionStarted_buf, Memory.read_outside (Memory.zeros_inside _) hi, Memory.read_outside inside hi]
  · rw [State.sessionStarted_env, Env.takeUsb_fifo]; rfl
  · rw [State.sessionStarted_env, Env.takeUsb_pdmEn]; rfl
  · rw [State.sessionStarted_env, Env.takeUsb_usbInflight, Env.takeUsb_history, accepted]; exact ⟨rfl, rfl⟩
  · rw [State.sessionStarted_env, Env.takeUsb_usbInflight, Env.takeUsb_history, refused]; exact ⟨rfl, rfl⟩
  · rw [State.sessionStarted_env, Env.takeUsb_dmaIdx]; rfl
  · rw [State.sessionStarted_env, Env.takeUsb_dmaRem]; rfl

/-! ### ENABLE and DISABLE (R104, R105) -/

/-- DISABLE while recording stops the recording and returns COUNT to NOMINAL. -/
theorem exec_disable_recording {s : State} (h : s.block.recFlag = true) : exec .cmdDisable s =
    .next (s.setBlock { s.block with count := s.block.nominal, sr := false, recFlag := false }) := by
  rw [exec, execCmdDisable, if_pos h]

/-- A completion while not recording emits a re-arm at most, and no USB_WRITE (R130). -/
theorem exec_epDone_emits_no_usbWrite {s : State} (h : s.block.recFlag = false) (err : Byte) :
    ∃ u n, exec (.epDone err) s = .next u ∧ (u.block.out = s.block.out ∨ u.block.out = s.block.out ++ [.dmaArm n]) := by
  refine ⟨_, s.recount.block.count.toNat, exec_epDone_not_recording h err, ?_⟩
  rcases s.recount.rearm_cases with e | e <;> rw [e]
  · right; rw [State.emit_block, State.recount_block]
  · left; rw [State.recount_block]

/-- Clearing a request that is not pending changes nothing. -/
theorem State.setBlock_sr_false {s : State} (h : s.block.sr = false) : s.setBlock { s.block with sr := false } = s := by
  rw [← h]; rfl

/-- Settles O17: DISABLE by whether a recording is stopped; either way it leaves REC clear, and a completion then emits
no USB_WRITE. -/
theorem disableStopsTheSession : Obligations.DisableStopsTheSession := by
  intro s
  refine ⟨decode_spellAccess_write .cmd 2#32, ?_⟩
  cases hr : s.block.recFlag with
  | true =>
    exact ⟨_, exec_disable_recording hr, rfl, rfl, fun _ => rfl, nofun, nofun, rfl,
      fun err inp => exec_epDone_emits_no_usbWrite rfl err⟩
  | false =>
    refine ⟨_, exec_disable hr, rfl, hr, nofun, fun _ => rfl, fun hs _ => State.setBlock_sr_false hs, rfl,
      fun err inp => exec_epDone_emits_no_usbWrite ?_ err⟩
    exact hr

/-- Settles O16: ENABLE in either case, and after a DISABLE it finds no recording. -/
theorem enableRequestsASession : Obligations.EnableRequestsASession := by
  intro s
  refine ⟨decode_spellAccess_write .cmd 1#32, exec_enable, exec_enable_recording, ?_⟩
  obtain ⟨u, hu⟩ : ∃ u, exec .cmdEnable s = .next u := ⟨_, rfl⟩
  obtain ⟨v, hv, not_recording⟩ : ∃ v, exec .cmdDisable u = .next v ∧ v.block.recFlag = false := ⟨_, rfl, rfl⟩
  refine ⟨v.setBlock { v.block with sr := true }, ?_, rfl⟩
  rw [runOps_cons hu, runOps_cons hv, runOps_cons (exec_enable not_recording), runOps]

/-! ### Sequences of commands (R238) -/

/-- An ENABLE, or a DISABLE, while not recording writes its value to SR. -/
theorem exec_request {s : State} (h : s.block.recFlag = false) (enable : Bool) :
    exec (if enable then .cmdEnable else .cmdDisable) s = .next (s.setBlock { s.block with sr := enable }) := by
  cases enable with
  | true => exact exec_enable h
  | false => exact exec_disable h

/-- Settles O54 by induction on the commands: each writes its value to SR, over what the one before wrote. -/
theorem requestsCoalesce : Obligations.RequestsCoalesce := by
  intro cmds
  induction cmds with
  | nil => intro s _; rfl
  | cons enable more ih =>
    intro s h
    have still_not_recording : (s.setBlock { s.block with sr := enable }).block.recFlag = false := h
    rw [List.map_cons, runOps_cons (exec_request h enable), ih _ still_not_recording, List.getLast?_cons]
    rfl

/-- Without a start request any number of SERVICE commands change nothing. -/
theorem runOps_service_idle {s : State} (h : s.block.sr = false) (n : Nat) :
    runOps (List.replicate n .cmdService) s = .next s := by
  induction n with
  | zero => rfl
  | succ n ih => rw [List.replicate_succ, runOps_cons (exec_service_idle h), ih]

/-- Settles O55: ENABLE and DISABLE end with SR as it was, clear, and SERVICE then finds no request. -/
theorem enableThenDisableIssuesNothing : Obligations.EnableThenDisableIssuesNothing := by
  intro n s idle
  obtain ⟨hr, hs⟩ := Block.session_eq_idle.mp idle
  have undone : (s.setBlock { s.block with sr := true }).setBlock { s.block with sr := false } = s :=
    State.setBlock_sr_false hs
  have disabled : exec .cmdDisable (s.setBlock { s.block with sr := true }) = .next s :=
    (exec_disable hr).trans (congrArg Host.Outcome.next undone)
  rw [runOps_cons (exec_enable hr), runOps_cons disabled, runOps_service_idle hs]

/-! ### The STATUS write (R109) -/

/-- Settles O20: the mask holds, at each cause's place, that cause's bit of the data word. -/
theorem statusWriteClearsNamedBits : Obligations.StatusWriteClearsNamedBits := by
  intro d s
  exact ⟨decode_spellAccess_write .status d, _, rfl, Sticky.get_clear_clearMaskOf s.block.sticky d, rfl⟩

/-! ### The configuration writes (R41, R110 to R112) -/

theorem State.configure_of_session_idle {s : State} (h : s.block.session = 0) (b : Block) :
    s.configure b = s.setBlock b :=
  State.configure_idle (Block.session_eq_zero.mp h) b

theorem State.configure_of_session_not_idle {s : State} (h : s.block.session ≠ 0) (b : Block) :
    s.configure b = s.raise .cfgLock :=
  State.configure_locked (Bool.eq_false_iff.mpr (mt Block.session_eq_zero.mpr h)) b

/-- The value WR_NOMINAL stores, as a number (R29, R110). -/
theorem State.legalNominal_toNat (s : State) (v : Half) :
    (s.legalNominal v).toNat = min v.toNat s.params.capacity.toNat := by
  unfold State.legalNominal
  split
  next h => exact (Nat.min_eq_left (BitVec.le_def.mp h)).symm
  next h => exact (Nat.min_eq_right (Nat.le_of_not_le (mt BitVec.le_def.mpr h))).symm

/-- Settles O21: the configuration lock in its two cases, the stored value by the smaller of the two numbers. -/
theorem nominalWriteIsLegalAndLocked : Obligations.NominalWriteIsLegalAndLocked := by
  intro d s
  refine ⟨decode_spellAccess_write .nominal d, fun idle => ?_, fun busy => ?_⟩
  · refine ⟨_, congrArg Host.Outcome.next (State.configure_of_session_idle idle _), ?_, rfl, rfl⟩
    exact (s.legalNominal_toNat (valueOf d)).trans (by rw [valueOf_toNat])
  · exact congrArg Host.Outcome.next (State.configure_of_session_not_idle busy _)

/-- Settles O22: the configuration lock in its two cases. -/
theorem stepWriteIsLocked : Obligations.StepWriteIsLocked := by
  intro d s
  refine ⟨decode_spellAccess_write .step d, fun idle => ?_, fun busy => ?_⟩
  · exact ⟨_, congrArg Host.Outcome.next (State.configure_of_session_idle idle _), valueOf_toNat d, rfl, rfl⟩
  · exact congrArg Host.Outcome.next (State.configure_of_session_not_idle busy _)

/-- Settles O23: the configuration lock in its two cases. -/
theorem trigWriteIsLocked : Obligations.TrigWriteIsLocked := by
  intro d s
  refine ⟨decode_spellAccess_write .trig d, fun idle => ?_, fun busy => ?_⟩
  · exact ⟨_, congrArg Host.Outcome.next (State.configure_of_session_idle idle _), valueOf_toNat d, rfl⟩
  · exact congrArg Host.Outcome.next (State.configure_of_session_not_idle busy _)

/-! ### Every operation completes (R100, R200) -/

/-- While recording, the COUNT words of a USB write can be read: they lie in the buffer and have been written (R164). -/
theorem State.Inv.payload_readable {s : State} (h : s.Inv) (recording : s.block.recFlag = true) :
    ∃ ws, s.payload s.block.count.toNat = .ok ws := by
  refine State.payload_total fun i hi => ?_
  have inside : i < s.capacity := Nat.lt_of_lt_of_le hi h.count_le
  exact ⟨inside, h.recording_written recording i inside⟩

theorem exec_epDone_completes {s : State} (h : s.Inv) (err : Byte) : ∃ t, exec (.epDone err) s = .next t := by
  cases hr : s.block.recFlag with
  | true =>
    obtain ⟨ws, hw⟩ := h.payload_readable hr
    exact ⟨_, (exec_epDone_recording hr err).mpr ⟨ws, hw, rfl⟩⟩
  | false => exact ⟨_, exec_epDone_not_recording hr err⟩

theorem exec_service_completes {s : State} (h : s.Inv) : ∃ t, exec .cmdService s = .next t := by
  cases hs : s.block.sr with
  | true => exact ⟨_, exec_service_started hs h.count_le⟩
  | false => exact ⟨_, exec_service_idle hs⟩

/-- Settles O40: the two operations that read the buffer find their payload; the others cannot stop. -/
theorem everyOperationCompletes : Obligations.EveryOperationCompletes := by
  intro i s h not_port not_class
  cases i with
  | cmdService => exact exec_service_completes h
  | epDone err => exact exec_epDone_completes h err
  | rsvdPort p low => exact absurd rfl (not_port p low)
  | rsvdClass r => exact absurd rfl (not_class r)
  | _ => exact ⟨_, rfl⟩

/-! ### The port fifo_level (R100) -/

theorem State.configure_present (s : State) (inp : Inputs) (b : Block) :
    (s.present inp).configure b = (s.configure b).present inp := by
  rcases State.configure_cases s b with ⟨idle, e⟩ | ⟨locked, e⟩ <;> rw [e]
  · exact State.configure_idle (s := s.present inp) idle b
  · exact State.configure_locked (s := s.present inp) locked b

theorem State.dmaWrite_present (s : State) (inp : Inputs) (i : Nat) (w : Word) :
    (s.present inp).dmaWrite i w = (s.dmaWrite i w).present inp := by
  rcases State.dmaWrite_cases s i w with ⟨inside, e⟩ | ⟨outside, e⟩ <;> rw [e]
  · exact State.dmaWrite_inside (s := s.present inp) inside w
  · exact State.dmaWrite_outside (s := s.present inp) outside w

theorem exec_enable_present {s t : State} (h : exec .cmdEnable s = .next t) (inp : Inputs) :
    exec .cmdEnable (s.present inp) = .next (t.present inp) := by
  cases hr : s.block.recFlag with
  | true =>
    rw [exec_enable_recording hr] at h; cases h
    exact exec_enable_recording hr
  | false =>
    rw [exec_enable hr] at h; cases h
    exact exec_enable (s := s.present inp) hr

/-- Of the inputs SERVICE reads the draw `accept` only, for the response to its USB_WRITE (R187). -/
theorem exec_service_present {s t : State} (h : exec .cmdService s = .next t) {inp : Inputs}
    (same_draw : inp.accept = s.inputs.accept) : exec .cmdService (s.present inp) = .next (t.present inp) := by
  cases hs : s.block.sr with
  | true =>
    obtain ⟨ws, hw, rfl⟩ := (exec_service_pending hs).mp h
    have payload_same : (s.present inp).prepareSession.payload s.block.count.toNat = .ok ws :=
      (State.payload_congr (s := s.prepareSession) (s' := (s.present inp).prepareSession) rfl rfl _).trans hw
    refine (exec_service_pending (s := s.present inp) hs).mpr ⟨ws, payload_same, ?_⟩
    obtain ⟨level, accept, restart⟩ := inp
    subst same_draw
    rfl
  | false =>
    rw [exec_service_idle hs] at h; cases h
    exact exec_service_idle (s := s.present inp) hs

/-- Settles O39, one operation after another. Those left to the last case read no input at all. -/
theorem onlyLevelReadAndCompletionSampleTheFifo : Obligations.OnlyLevelReadAndCompletionSampleTheFifo := by
  intro i s t l h not_rdLevel not_epDone
  cases i with
  | rdLevel => exact absurd rfl not_rdLevel
  | epDone err => exact absurd rfl (not_epDone err)
  | cmdEnable => exact exec_enable_present h _
  | cmdService => exact exec_service_present h rfl
  | wrNominal d | wrStep d | wrTrig d => cases h; exact congrArg Host.Outcome.next (State.configure_present s _ _)
  | dmaWr idx data => cases h; exact congrArg Host.Outcome.next (State.dmaWrite_present s _ _ data)
  | rsvdPort => cases h
  | rsvdClass => cases h
  | _ => cases h; rfl

/-! ### The register reads (R102, R108, R113 to R116, R118, R120) -/

/-- An answered register, as a number. -/
theorem State.answer_zext32 (s : State) (h : Half) :
    s.answer (zext32 h) = { s with readData := some (BitVec.ofNat 32 h.toNat) } := by
  rw [zext32_eq]; rfl

/-- Settles O11: the answers by zero-extension, the bounds by the invariant. -/
theorem readsAnswerTheirRegister : Obligations.ReadsAnswerTheirRegister := by
  intro s
  have reads : ∀ r : Reg, Spells (spellAccess .word r.offset none) (readOf r) := decode_spellAccess_read
  have answers : ∀ h : Half, (.next (s.answer (zext32 h)) : Host.Outcome State Fault Refusal) =
      .next { s with readData := some (BitVec.ofNat 32 h.toNat) } :=
    fun h => congrArg Host.Outcome.next (s.answer_zext32 h)
  exact ⟨reads .cmd, rfl, reads .nominal, answers _, reads .step, answers _, reads .trig, answers _,
    reads .count, answers _, reads .capacity, answers _, fun inv => ⟨inv.nominal_le, inv.count_le⟩, fun _ => rfl⟩

/-- In a state of the invariant SESSION is not 0b11 (R25). -/
theorem State.Inv.session_ne_both {s : State} (h : s.Inv) : s.block.session ≠ 0b11#2 := fun both =>
  h.not_both (Block.session_eq_both.mp both).symm

/-- The code of BAND as a number (R28). -/
theorem Band.code_toNat (b : Band) : b.code.toNat = (match b with | .hold => 0 | .low => 1 | .high => 2) := by
  cases b <;> rfl

/-- The bit of STATUS at an error cause's number is its sticky bit (R26, R201). -/
theorem Block.statusWord_sticky (b : Block) (c : ErrorCause) : b.statusWord.getLsbD c.bit = b.sticky.get c := by
  rw [Block.statusWord_bit]
  cases c <;> rfl

/-- The bits of STATUS between BAND and the sticky bits, and those above them, read 0 (R26). -/
theorem Block.statusWord_reserved (b : Block) {k : Nat} (hk : 4 ≤ k ∧ k < 8 ∨ 13 ≤ k) :
    b.statusWord.getLsbD k = false := by
  rw [Block.statusWord_bit]
  simp (disch := omega) only [if_neg]
  split <;> rfl

/-- Settles O12, one field of STATUS after another. -/
theorem statusReadsItsLayout : Obligations.StatusReadsItsLayout := by
  intro s
  refine ⟨decode_spellAccess_read .status, s.block.statusWord, rfl, ?_, ?_, ?_, ?_, ?_, ?_, fun inv => ?_⟩
  · exact s.block.statusWord_bit 0
  · exact s.block.statusWord_bit 1
  · rw [Block.statusWord_band]; exact Band.code_toNat _
  · exact fun k h4 h8 => s.block.statusWord_reserved (.inl ⟨h4, h8⟩)
  · exact s.block.statusWord_sticky
  · exact fun k h13 => s.block.statusWord_reserved (.inr h13)
  · rw [Block.statusWord_session]; exact inv.session_ne_both

/-- A level the port is driven with is the level of the step (R33). -/
theorem State.fifoLevel_driven {s : State} {n : Half} (h : s.inputs.level = some n) : s.fifoLevel = n := by
  unfold State.fifoLevel; rw [h]

/-- The reference FIFO drives the port with its number of samples, which 16 bits hold (R181). -/
theorem State.fifoLevel_reference {s : State} (h : s.inputs.level = none)
    (fits : s.env.fifo.length ≤ s.params.fifoDepth.toNat) : s.fifoLevel.toNat = s.env.fifo.length := by
  have depth := s.params.fifoDepth.isLt
  unfold State.fifoLevel
  rw [h]
  exact Nat.mod_eq_of_lt (by omega)

/-- Settles O13: the answer is the level of the step, in either way of driving the port. -/
theorem levelReadsThePort : Obligations.LevelReadsThePort := by
  intro s
  have answers : exec .rdLevel s = .next { s with readData := some (BitVec.ofNat 32 s.fifoLevel.toNat) } :=
    congrArg Host.Outcome.next (s.answer_zext32 s.fifoLevel)
  refine ⟨decode_spellAccess_read .level, fun n driven => ?_, fun reference fits => ?_⟩
  · rw [answers, State.fifoLevel_driven driven]
  · rw [answers, State.fifoLevel_reference reference fits]

/-! ### The bus-error accesses (R122, R123) -/

/-- A header other than the eight word headers of its class names no register: a header is its three fields. -/
theorem not_namesRegister_of_ne_hostHeader {h : Half} {cls : BitVec 2} (c : h.extractLsb' 14 2 = cls)
    (other : ∀ r : Reg, h ≠ hostHeader cls .word r.offset) :
    ¬namesRegister (headerSize h) (headerOffset h) = true := by
  intro names
  obtain ⟨size, r, offset⟩ := namesRegister_iff_offset.mp names
  refine other r ?_
  rw [← c, ← size, ← offset, hostHeader_fields]

/-- The eight read headers, and the eight write headers (R83). -/
theorem hostHeader_read (r : Reg) : hostHeader 0b00#2 .word r.offset = 0x2000#16 ||| r.offset.zeroExtend 16 := by
  cases r <;> rfl

theorem hostHeader_write (r : Reg) : hostHeader 0b01#2 .word r.offset = 0x6000#16 ||| r.offset.zeroExtend 16 := by
  cases r <;> rfl

/-- Settles O14: the effect is the definition's, and a read header that is none of the eight names no register. -/
theorem busErrorReadAnswersZero : Obligations.BusErrorReadAnswersZero := by
  refine ⟨fun size off s => rfl, fun h c other => ⟨headerSize h, headerOffset h, ?_⟩⟩
  have names_none := not_namesRegister_of_ne_hostHeader c fun r => hostHeader_read r ▸ other r
  exact spellAccess_hostRd (headerClass_eq_hostRd.mpr c) ▸ spells_busErrRd names_none

/-- Settles O24: the effect is the definition's, and a write header that is none of the eight names no register. -/
theorem busErrorWriteChangesNoRegister : Obligations.BusErrorWriteChangesNoRegister := by
  refine ⟨fun size off d s => rfl, fun h d c other => ⟨headerSize h, headerOffset h, ?_⟩⟩
  have names_none := not_namesRegister_of_ne_hostHeader c fun r => hostHeader_write r ▸ other r
  exact spellAccess_hostWr (headerClass_eq_hostWr.mpr c) d ▸ spells_busErrWr names_none d

/-! ### The writes and commands without a case (R103, R107, R117, R119, R121) -/

/-- Settles O15: the four operations are the identity, by their definitions. -/
theorem ignoredWritesChangeNothing : Obligations.IgnoredWritesChangeNothing := by
  intro d s
  have writes : ∀ r : Reg, Spells (spellAccess .word r.offset (some d)) (writeOf r d) :=
    fun r => decode_spellAccess_write r d
  exact ⟨decode_spellAccess_write .cmd 0#32, rfl, writes .count, rfl, writes .level, rfl, writes .capacity, rfl⟩

/-- Settles O19: the words are those of O6, and the effect is the raised cause. -/
theorem reservedCommandSetsBadcmd : Obligations.ReservedCommandSetsBadcmd := by
  intro d s
  obtain ⟨-, -, -, -, reserved⟩ := commandWordsDecode d
  exact ⟨reserved, rfl⟩

end Sys2Proof.Machine

/-! The controller family (41_controller): what a completion does, that COUNT stays within one step of NOMINAL, and that
the USB write of a completion has the length the previous completion armed. -/

namespace Sys2Proof.Machine

/-! ### The comparator, the adjuster and the clamp (R131 to R133) -/

/-- Above the watermark the verdict is HIGH, whatever NOMINAL is. -/
theorem compareBand_high {occ nominal trig : Nat} (above : trig < occ) : compareBand occ nominal trig = .high :=
  if_pos above

theorem compareBand_low {occ nominal trig : Nat} (not_above : occ ≤ trig) (below : occ < nominal) :
    compareBand occ nominal trig = .low := by
  rw [compareBand, if_neg (Nat.not_lt.mpr not_above), if_pos below]

theorem compareBand_hold {occ nominal trig : Nat} (not_above : occ ≤ trig) (not_below : nominal ≤ occ) :
    compareBand occ nominal trig = .hold := by
  rw [compareBand, if_neg (Nat.not_lt.mpr not_above), if_neg (Nat.not_lt.mpr not_below)]

/-- EP_DONE recounts: its BAND is the comparator's verdict, whose candidate is kept or replaced. -/
theorem exec_epDone_recounted {s t : State} {err : Byte} (h : exec (.epDone err) s = .next t) :
    Recounted s.capacity s.fifoLevel.toNat s.block t.block := by
  rw [exec_epDone_frame h]
  constructor
  case high => exact compareBand_high
  case low => exact compareBand_low
  case hold => exact compareBand_hold
  case kept =>
    intro cand adjusted nonneg le
    have adjusted : cand = s.candidate := adjusted
    have in_range : clampNeeded s.capacity s.candidate = false := clampNeeded_eq_false.mpr (adjusted ▸ ⟨nonneg, le⟩)
    exact ⟨(clampCount_kept in_range s.capacity_lt _).trans adjusted.symm, by rw [in_range]; rfl⟩
  case replaced =>
    intro cand adjusted outside
    have adjusted : cand = s.candidate := adjusted
    have out_of_range : clampNeeded s.capacity s.candidate = true := clampNeeded_eq_true.mpr (adjusted ▸ outside)
    exact ⟨clampCount_replaced out_of_range _, if_pos out_of_range⟩

/-! ### The outputs of a completion (R130, R136, R180) -/

/-- EP_DONE changes COUNT, BAND, the sticky bits, the log and the environment only. -/
theorem exec_epDone_keeps {s t : State} {err : Byte} (h : exec (.epDone err) s = .next t) : t = { s with
    block := { s.block with
      count := t.block.count, band := t.block.band, sticky := t.block.sticky, out := t.block.out }
    env := t.env } := by
  rw [exec_epDone_frame h]

/-- An armed completion ends with the DMA_ARM of the new count, and the DMA engine's response to it. -/
theorem State.rearm_recount_armed {s t : State} (armed : (s.block.recFlag || s.params.idleRearm) = true)
    (ht : t = s.recount.rearm) : t.block.out = s.block.out ++ [.dmaArm t.block.count.toNat] ∧
      t.env = s.env.respond s.inputs (.dmaArm t.block.count.toNat) := by
  have still_armed : (s.recount.block.recFlag || s.recount.params.idleRearm) = true := by
    rwa [State.recount_block, State.recount_params]
  subst ht
  rw [State.rearm_armed still_armed]
  simp

/-- A completion that re-arms nothing emits nothing. -/
theorem State.rearm_recount_quiet {s : State} (quiet : (s.block.recFlag || s.params.idleRearm) = false) :
    s.recount.rearm.block.out = s.block.out ∧ s.recount.rearm.env = s.env := by
  have still_quiet : (s.recount.block.recFlag || s.recount.params.idleRearm) = false := by
    rwa [State.recount_block, State.recount_params]
  rw [State.rearm_quiet still_quiet]
  simp

/-- EP_DONE while recording answers exactly when the buffer holds the old count's words, which it then sends. -/
theorem exec_epDone_recording_holds {s t : State} (recording : s.block.recFlag = true) (err : Byte) :
    exec (.epDone err) s = .next t ↔ ∃ ws, s.Holds s.block.count.toNat ws ∧
      t = (s.emit (.usbWrite s.block.count.toNat ws)).recount.rearm := by
  simp only [exec_epDone_recording recording, State.payload_eq_ok, State.Holds]

/-- A completion while recording appends its USB_WRITE and the DMA_ARM of the new count, and the collaborators respond to
them in this order. -/
theorem State.completion_emits {s t : State} (recording : s.block.recFlag = true) {n : Nat} {ws : List Word}
    (ht : t = (s.emit (.usbWrite n ws)).recount.rearm) :
    t.block.out = s.block.out ++ [.usbWrite n ws, .dmaArm t.block.count.toNat] ∧
      t.env = (s.env.respond s.inputs (.usbWrite n ws)).respond s.inputs (.dmaArm t.block.count.toNat) := by
  have armed : ((s.emit (.usbWrite n ws)).block.recFlag || (s.emit (.usbWrite n ws)).params.idleRearm) = true := by
    simp [recording]
  obtain ⟨hout, henv⟩ := State.rearm_recount_armed armed ht
  exact ⟨by rw [hout, State.emit_block, List.append_assoc]; rfl, henv⟩

/-- Settles O27: the USB write, the recount and the re-arm, each by its own lemma; the error code is read by none. -/
theorem completionRunsThePump : Obligations.CompletionRunsThePump := by
  intro err s
  refine ⟨rfl, fun _ => rfl, fun ws recording holds => ?_, fun not_recording => ?_⟩
  · obtain ⟨t, ht⟩ : ∃ t, t = (s.emit (.usbWrite s.block.count.toNat ws)).recount.rearm := ⟨_, rfl⟩
    have completes : exec (.epDone err) s = .next t := (exec_epDone_recording_holds recording err).mpr ⟨ws, holds, ht⟩
    obtain ⟨hout, henv⟩ := State.completion_emits recording ht
    exact ⟨t, completes, exec_epDone_recounted completes, hout, henv, exec_epDone_keeps completes⟩
  · have completes := exec_epDone_not_recording not_recording err
    refine ⟨_, completes, exec_epDone_recounted completes, fun rearm => ?_, fun no_rearm => ?_,
      exec_epDone_keeps completes⟩
    · exact State.rearm_recount_armed (by rw [rearm, Bool.or_true]) rfl
    · exact State.rearm_recount_quiet (by rw [not_recording, no_rearm]; rfl)

/-! ### COUNT and NOMINAL (R139) -/

/-- EP_DONE keeps the configuration and the parameters, from which with the level the next count is computed. -/
theorem exec_epDone_keeps_operands {s t : State} {err : Byte} (h : exec (.epDone err) s = .next t) :
    t.block.nominal = s.block.nominal ∧ t.block.stepReg = s.block.stepReg ∧ t.block.trig = s.block.trig ∧
      t.params = s.params := by
  rw [exec_epDone_frame h]; exact ⟨rfl, rfl, rfl, rfl⟩

/-- COUNT never exceeds the capacity after EP_DONE, NOMINAL being legal (R29). -/
theorem exec_epDone_count_le {s t : State} {err : Byte} (legal : s.block.nominal.toNat ≤ s.capacity)
    (h : exec (.epDone err) s = .next t) : t.block.count.toNat ≤ s.capacity := by
  rw [exec_epDone_frame h]
  exact clampCount_le legal s.capacity_lt s.candidate

theorem exec_epDone_countNearNominal {s t : State} {err : Byte} (h : exec (.epDone err) s = .next t) :
    t.block.countNearNominal := by
  have near := s.recount_countNearNominal
  rw [State.recount_block] at near
  rw [exec_epDone_frame h]
  exact near

/-- A HIGH cycle stores NOMINAL + STEP, or NOMINAL where the sum is out of range, whatever COUNT was. -/
theorem exec_epDone_count_of_high {s t : State} {err : Byte} (above : s.block.trig.toNat < s.fifoLevel.toNat)
    (h : exec (.epDone err) s = .next t) : t.block.count.toNat =
      if s.block.nominal.toNat + s.block.stepReg.toNat ≤ s.capacity
      then s.block.nominal.toNat + s.block.stepReg.toNat else s.block.nominal.toNat := by
  have recounted := exec_epDone_recounted h
  have high : t.block.band = .high := recounted.high above
  split
  next fits =>
    obtain ⟨hcount, -⟩ := recounted.kept (s.block.nominal.toNat + s.block.stepReg.toNat) (by rw [high]) (by omega)
      (by omega)
    omega
  next exceeds =>
    obtain ⟨hcount, -⟩ := recounted.replaced (s.block.nominal.toNat + s.block.stepReg.toNat) (by rw [high])
      (.inr (by omega))
    rw [hcount]

/-- Settles O28: one completion by the clamp's bounds; of three HIGH cycles the last alone fixes COUNT, from a NOMINAL and
a STEP that the first two keep. -/
theorem countStaysWithinOneStep : Obligations.CountStaysWithinOneStep := by
  refine ⟨fun err s t legal h => ⟨exec_epDone_count_le legal h, ?_⟩, ?_⟩
  · have near := exec_epDone_countNearNominal h
    obtain ⟨hnominal, hstep, -, -⟩ := exec_epDone_keeps_operands h
    rw [Block.countNearNominal, hnominal, hstep] at near
    obtain same | up | down := near
    · exact .inr (.inl (BitVec.eq_of_toNat_eq same))
    · exact .inr (.inr up)
    · exact .inl (by omega)
  · intro e1 e2 e3 i1 i2 i3 s t u v _ _ h1 _ h2 above h3
    obtain ⟨nominal_t, step_t, trig_t, params_t⟩ := exec_epDone_keeps_operands h1
    obtain ⟨nominal_u, step_u, trig_u, params_u⟩ := exec_epDone_keeps_operands h2
    have nominal_eq : u.block.nominal = s.block.nominal := nominal_u.trans nominal_t
    have step_eq : u.block.stepReg = s.block.stepReg := step_u.trans step_t
    have trig_eq : u.block.trig = s.block.trig := trig_u.trans trig_t
    have params_eq : u.params = s.params := params_u.trans params_t
    rw [← trig_eq] at above
    rw [← nominal_eq, ← step_eq, ← params_eq]
    exact exec_epDone_count_of_high (s := u.present i3) above h3

/-! ### The cycle between two completions (R135) -/

/-- `t` is in the cycle and the recording of `s`: nothing that fixes the next completion's USB write length has changed. -/
structure State.SameCycle (s t : State) : Prop where
  recording : t.block.recFlag = true
  sr : t.block.sr = s.block.sr
  count : t.block.count = s.block.count
  out : t.block.out = s.block.out
  params : t.params = s.params

theorem State.SameCycle.trans {s t u : State} (h : s.SameCycle t) (h' : t.SameCycle u) : s.SameCycle u where
  recording := h'.recording
  sr := h'.sr.trans h.sr
  count := h'.count.trans h.count
  out := h'.out.trans h.out
  params := h'.params.trans h.params

/-- A DMA write touches the buffer or a sticky bit, and neither is part of the cycle (R160). -/
theorem State.dmaWrite_sameCycle {s : State} (recording : s.block.recFlag = true) (i : Nat) (w : Word) :
    s.SameCycle (s.dmaWrite i w) ∧ (s.dmaWrite i w).agenda = s.agenda := by
  rcases State.dmaWrite_cases s i w with ⟨-, e⟩ | ⟨-, e⟩ <;> rw [e] <;> exact ⟨⟨recording, rfl, rfl, rfl, rfl⟩, rfl⟩

/-- An entry that stays in the cycle keeps it: an operation by `exec_keeps_cycle`, an environment's step because it
reaches the buffer and the environment only. -/
theorem State.runEntry_sameCycle {s t : State} {e : Stimulus} (recording : s.block.recFlag = true)
    (stays : e.staysInCycle s.params) (no_start : s.block.sr = true → e.operation s.params ≠ some .cmdService)
    (h : s.runEntry e = .next t) : s.SameCycle t ∧ t.agenda = s.agenda := by
  obtain ⟨not_epDone, not_disable, not_reset⟩ := stays
  rcases State.runEntry_next h with ⟨inp, bytes, i, he, hd, hi⟩ | ⟨inp, _, _, _, -, rfl⟩ | ⟨w, -, -, rfl⟩ |
    ⟨w, _, -, -, -, rfl⟩ | ⟨_, _, err, _, _, rfl, -, -⟩ | ⟨c, rfl, -⟩
  · have presents : e.operation s.params = some i := Stimulus.operation_of_decode he hd
    rw [presents] at not_epDone not_disable no_start
    obtain ⟨hrec, hsr, hcount, hout, hagenda, hparams⟩ := exec_keeps_cycle (s := s.present inp) recording
      (fun err => mt (congrArg some) (not_epDone err)) (mt (congrArg some) not_disable)
      (fun hsr => mt (congrArg some) (no_start hsr)) hi
    exact ⟨⟨hrec, hsr, hcount, hout, hparams⟩, hagenda⟩
  · exact ⟨⟨recording, rfl, rfl, rfl, rfl⟩, rfl⟩
  · exact ⟨⟨recording, rfl, rfl, rfl, rfl⟩, rfl⟩
  · obtain ⟨same, hagenda⟩ := State.dmaWrite_sameCycle (s := s.setEnv s.env.beat) recording s.env.dmaIdx w
    exact ⟨{ same with }, hagenda⟩
  · exact absurd rfl (not_epDone err)
  · exact absurd rfl (not_reset c)

/-- A run of entries that stay in the cycle keeps it. -/
theorem runSteps_sameCycle {between : List Stimulus} {s u : State} (presented : s.agenda = between)
    (recording : s.block.recFlag = true) (stay : ∀ x ∈ between, x.staysInCycle s.params)
    (no_start : s.block.sr = true → ∀ x ∈ between, x.operation s.params ≠ some .cmdService)
    (h : runSteps between.length s = .next u) : s.SameCycle u := by
  induction between generalizing s with
  | nil => cases h; exact ⟨recording, rfl, rfl, rfl, rfl⟩
  | cons x more ih =>
    obtain ⟨t, hstep, hrun⟩ := runSteps_succ_next h
    rw [step_cons presented] at hstep
    have first : s.SameCycle t ∧ t.agenda = more := by
      obtain ⟨same, hagenda⟩ := State.runEntry_sameCycle (s := s.beginEntry more) recording (stay x List.mem_cons_self)
        (fun hsr => no_start hsr x List.mem_cons_self) hstep
      exact ⟨{ same with }, hagenda⟩
    obtain ⟨same, hagenda⟩ := first
    refine same.trans (ih hagenda same.recording (fun y hy => ?_) (fun hsr y hy => ?_) hrun)
    · rw [same.params]; exact stay y (List.mem_cons_of_mem x hy)
    · rw [same.params]; exact no_start (same.sr ▸ hsr) y (List.mem_cons_of_mem x hy)

/-- A completion leaves the session phase as it is. -/
theorem exec_epDone_keeps_session {s t : State} {err : Byte} (h : exec (.epDone err) s = .next t) :
    t.block.recFlag = s.block.recFlag ∧ t.block.sr = s.block.sr := by
  rw [exec_epDone_frame h]; exact ⟨rfl, rfl⟩

/-- Settles O29: the first completion arms the COUNT it stores, the steps between keep COUNT and the log, and the second
completion sends COUNT words. -/
theorem usbLengthFollowsDmaLength : Obligations.UsbLengthFollowsDmaLength := by
  intro e e' between s t u u' v recording first stay no_start run same_block second
  obtain ⟨hrec, hsr⟩ := exec_epDone_keeps_session first
  obtain ⟨-, -, -, hparams⟩ := exec_epDone_keeps_operands first
  have cycle : t.SameCycle u := by
    have kept : State.SameCycle { t with agenda := between } u := by
      refine runSteps_sameCycle rfl (hrec.trans recording) ?_ (fun sr => ?_) run
      · rwa [hparams]
      · rw [hparams]; exact no_start (hsr ▸ sr)
    exact { kept with }
  obtain ⟨ws₀, -, ht⟩ := (exec_epDone_recording_holds recording e).mp first
  have recording' : u'.block.recFlag = true := same_block ▸ cycle.recording
  obtain ⟨ws, holds, hv⟩ := (exec_epDone_recording_holds recording' e').mp second
  obtain ⟨out_t, -⟩ := State.completion_emits recording ht
  obtain ⟨out_v, -⟩ := State.completion_emits recording' hv
  rw [same_block, cycle.out, cycle.count, out_t] at out_v
  rw [same_block, cycle.count] at holds
  refine ⟨s.block.out ++ [.usbWrite s.block.count.toNat ws₀], t.block.count.toNat, ws, v.block.count.toNat, ?_,
    cycle.out, ?_, holds⟩
  · rw [out_t, List.append_assoc]; rfl
  · rw [out_v, List.append_assoc, List.append_assoc]; rfl

end Sys2Proof.Machine

/-! The buffer family (42_buffer_dma, with the DMA beat of 43_environment): what a DMA write does to the sample buffer,
which operations reach the buffer at all, and that no payload read of it faults. -/

namespace Sys2Proof.Machine

/-! ### The DMA write (R160) -/

theorem spells_dmaWr (idx : Half) (data : Word) :
    Spells (halfBytes 0x8100 ++ (halfBytes idx ++ wordBytes data)) (.dmaWr idx data) := by
  have round_trip := decodeInvertsEncode (.dmaWr idx data) [] rfl
  rwa [List.append_nil] at round_trip

/-- Settles O25, one equation of the DMA write per range of the index. -/
theorem dmaWriteIsBoundsChecked : Obligations.DmaWriteIsBoundsChecked := by
  intro idx data s
  refine ⟨spells_dmaWr idx data, fun inside => ?_, fun outside => ?_⟩
  · refine ⟨_, congrArg Host.Outcome.next (State.dmaWrite_inside inside data), ?_, rfl⟩
    rintro a rfl
    exact ⟨Memory.read_write_same _ _ _, fun j hj => Memory.read_write_other _ _ hj⟩
  · exact congrArg Host.Outcome.next (State.dmaWrite_outside outside data)

/-! ### The DMA beat (R186) -/

theorem State.dmaStep_disabled {s : State} (h : s.env.dmaRem = 0 ∨ s.env.fifo = []) :
    s.dmaStep = .refused (.notEnabled .dma) := by
  unfold State.dmaStep
  rcases h with none_left | empty
  · split
    · rfl
    · exact if_pos none_left
  · rw [empty]

/-- An enabled beat whose index lies inside the buffer, in one equation. -/
theorem State.dmaStep_inside {s : State} {w : Word} {ws : List Word} (queued : s.env.fifo = w :: ws)
    (left : s.env.dmaRem ≠ 0) (inside : s.env.dmaIdx < s.capacity) : s.dmaStep = .next { s with
      block := { s.block with buf := s.block.buf.write s.env.dmaIdx w }
      env := { s.env with fifo := ws, dmaIdx := s.env.dmaIdx + 1, dmaRem := s.env.dmaRem - 1 } } := by
  have beat : s.dmaStep = .next ((s.setEnv s.env.beat).dmaWrite s.env.dmaIdx w) := by
    simp [State.dmaStep, queued, left]
  rw [beat, State.dmaWrite_inside (s := s.setEnv s.env.beat) inside, Env.beat, queued]
  rfl

/-- Settles O48: the beat is enabled exactly where a beat is left and a sample queued, and in a state of the invariant
`dma_idx` then lies inside the buffer (R186), so its DMA write is never dropped. -/
theorem dmaBeatMovesOneSample : Obligations.DmaBeatMovesOneSample := by
  intro s more presented
  rw [step_cons presented]
  refine ⟨fun disabled => ?_, fun w ws queued left inv => ?_⟩
  · exact State.dmaStep_disabled (s := s.beginEntry more) disabled
  · have inside : s.env.dmaIdx < s.capacity := by
      have := inv.dma_inside
      omega
    exact ⟨_, State.dmaStep_inside (s := s.beginEntry more) queued (Nat.ne_of_gt left) inside, Memory.read_write_same _ _ _,
      fun j hj => Memory.read_write_other _ _ hj, rfl⟩

/-! ### The accesses to the buffer (R163) -/

/-- The state with other words in the buffer. -/
def State.withBuffer (s : State) (m : Memory) : State := s.setBlock { s.block with buf := m }

/-- What an operation other than SERVICE makes of the words `m` of the buffer. -/
def bufferAfter (i : Instr) (s : State) (m : Memory) : Memory :=
  match i with
  | .dmaWr idx data => if indexOf idx < s.capacity then m.write (indexOf idx) data else m
  | _ => m

theorem State.configure_withBuffer (s : State) {m : Memory} {accepted accepted' : Block}
    (same : accepted' = { accepted with buf := m }) :
    (s.withBuffer m).configure accepted' = (s.configure accepted).withBuffer m := by
  subst same
  rcases State.configure_cases s accepted with ⟨idle, e⟩ | ⟨locked, e⟩ <;> rw [e]
  · exact State.configure_idle (s := s.withBuffer m) idle _
  · exact State.configure_locked (s := s.withBuffer m) locked _

theorem State.dmaWrite_withBuffer (s : State) (m : Memory) (i : Nat) (w : Word) :
    (s.withBuffer m).dmaWrite i w = (s.dmaWrite i w).withBuffer (if i < s.capacity then m.write i w else m) := by
  by_cases inside : i < s.capacity
  · rw [State.dmaWrite_inside inside, State.dmaWrite_inside (s := s.withBuffer m) inside, if_pos inside]; rfl
  · have outside := Nat.le_of_not_lt inside
    rw [State.dmaWrite_outside outside, State.dmaWrite_outside (s := s.withBuffer m) outside, if_neg inside]; rfl

/-- With other words in the buffer, every operation but SERVICE and EP_DONE has the same effect, the buffer apart. -/
theorem exec_withBuffer {i : Instr} {s t : State} (not_service : i ≠ .cmdService)
    (not_epDone : ∀ err, i ≠ .epDone err) (h : exec i s = .next t) (m : Memory) :
    exec i (s.withBuffer m) = .next (t.withBuffer (bufferAfter i s m)) := by
  cases i with
  | cmdService => exact absurd rfl not_service
  | epDone err => exact absurd rfl (not_epDone err)
  | cmdEnable =>
    cases hr : s.block.recFlag with
    | true =>
      rw [exec_enable_recording hr] at h; cases h
      exact exec_enable_recording (s := s.withBuffer m) hr
    | false => rw [exec_enable hr] at h; cases h; exact exec_enable (s := s.withBuffer m) hr
  | wrNominal d | wrStep d | wrTrig d => cases h; exact congrArg Host.Outcome.next (s.configure_withBuffer rfl)
  | dmaWr idx data => cases h; exact congrArg Host.Outcome.next (s.dmaWrite_withBuffer m _ data)
  | rsvdPort => cases h
  | rsvdClass => cases h
  | _ => cases h; rfl

/-- The buffer after an operation other than SERVICE. -/
theorem exec_buffer {i : Instr} {s t : State} (not_service : i ≠ .cmdService) (h : exec i s = .next t) :
    t.block.buf = bufferAfter i s s.block.buf := by
  by_cases hd : ∃ err, i = .epDone err
  · obtain ⟨err, rfl⟩ := hd
    rw [exec_epDone_frame h]; rfl
  · have same := exec_withBuffer not_service (not_exists.mp hd) h s.block.buf
    have ht : t = t.withBuffer (bufferAfter i s s.block.buf) := Host.Outcome.next.inj (h.symm.trans same)
    exact congrArg (·.block.buf) ht

/-- Settles O26: `bufferAfter` is the buffer found but for DMA_WR, and only SERVICE and EP_DONE read its words. -/
theorem bufferHasItsListedAccesses : Obligations.BufferHasItsListedAccesses := by
  intro i s t m h not_service
  have written := exec_buffer not_service h
  refine ⟨fun not_dmaWr a => ?_, fun not_epDone => ⟨_, exec_withBuffer not_service not_epDone h m, rfl⟩⟩
  rw [written]
  cases i with
  | dmaWr idx data => exact absurd rfl (not_dmaWr idx data)
  | _ => rfl

/-! ### No payload read faults (R164, R200) -/

/-- Only the two operations that read the buffer can fault, and in a state of the invariant both complete. -/
theorem State.Inv.exec_ne_fault {s : State} (h : s.Inv) (i : Instr) (f : Fault) : exec i s ≠ .fault f := by
  intro e
  have completes : ∃ t, exec i s = .next t := by
    rcases exec_fault e with ⟨rfl, -, -⟩ | ⟨err, rfl, -, -⟩
    · exact exec_service_completes h
    · exact exec_epDone_completes h err
  obtain ⟨t, ht⟩ := completes
  cases e.symm.trans ht

/-- An entry that faults ran an operation, from the state with its inputs presented or, at a completion under ENV_REF,
with the head transfer taken off as well (R188). -/
theorem State.runEntry_fault {s : State} {e : Stimulus} {f : Fault} (h : s.runEntry e = .fault f) :
    ∃ i inp, exec i (s.present inp) = .fault f ∨
      exec i ((s.present inp).setEnv s.env.completeUsb) = .fault f := by
  cases e with
  | txn inp bytes =>
    obtain ⟨i, -, hi⟩ := State.runTransaction_fault h
    exact ⟨i, inp, .inl hi⟩
  | bus inp addr size data =>
    rw [State.runEntry] at h
    cases ho : s.params.offsetOf addr with
    | some off =>
      rw [State.runBusAccess_inside (s := s.present inp) ho] at h
      obtain ⟨i, -, hi⟩ := State.runTransaction_fault h
      exact ⟨i, inp, .inl hi⟩
    | none => rw [State.runBusAccess_outside (s := s.present inp) ho] at h; cases h
  | pdmPush w =>
    simp only [State.runEntry, State.pdmStep] at h
    split at h <;> cases h
  | dmaBeat =>
    simp only [State.runEntry, State.dmaStep] at h
    split at h
    · cases h
    · split at h <;> cases h
  | usbDone a r err =>
    simp only [State.runEntry, State.usbStep] at h
    split at h
    · cases h
    · exact ⟨.epDone err, ⟨none, a, r⟩, .inr h⟩
  | rst c => cases h

theorem State.Inv.runEntry_ne_fault {s : State} (h : s.Inv) (e : Stimulus) (f : Fault) : s.runEntry e ≠ .fault f := by
  intro faults
  obtain ⟨i, inp, hi | hi⟩ := State.runEntry_fault faults
  · exact (h.present inp).exec_ne_fault i f hi
  · exact ((h.present inp).setEnv h.env_bounded.completeUsb).exec_ne_fault i f hi

/-- Settles O45: a step waits, or runs an entry from a state of the invariant. -/
theorem noStepFaults : Obligations.NoStepFaults := by
  intro s f h
  cases ha : s.agenda with
  | nil => simp [step, State.runNext, ha]
  | cons e more =>
    rw [step_cons ha]
    exact (h.beginEntry more).runEntry_ne_fault e f

/-- A run from a state of the invariant stays in the invariant, where no step faults. -/
theorem State.Inv.faultFree {s : State} (h : s.Inv) (k : Nat) : s.faultFree k := by
  intro f
  induction k generalizing s with
  | zero => simp [runSteps]
  | succ k ih =>
    rw [runSteps_succ]
    cases hs : step s with
    | next t => exact ih (stepKeepsTheInvariant s t h hs)
    | fault g => exact absurd hs (noStepFaults s g h)
    | refused r => simp

/-- Settles O46: the invariant holds at reset, whatever is presented. -/
theorem noRunFromResetFaults : Obligations.NoRunFromResetFaults := fun p todo k legal =>
  (invariantHoldsAtReset.2 p todo legal).faultFree k

end Sys2Proof.Machine

/-! The environment family (43_environment): what the agents' steps and answers change, which steps keep capture enabled,
and that no run under ENV_REF raises DMA_OOR. -/

namespace Sys2Proof.Machine

/-! ### Runs under ENV_REF (R185, R186, R188) -/

/-- Bit 15 of a host header is the upper bit of its class (R80, R81). -/
theorem hostHeader_bit15 (cls : BitVec 2) (size : Size) (off : Offset) :
    (hostHeader cls size off).getLsbD 15 = cls.getLsbD 1 := by
  rw [hostHeader, append_bit, append_bit]
  rfl

theorem hostClassBytes_halfBytes (h : Half) (rest : List Byte) :
    hostClassBytes (halfBytes h ++ rest) = !h.getLsbD 15 := by
  simp [halfBytes, hostClassBytes]

/-- A host access is of a host class: bit 15 of its header is clear, of a read and of a write. -/
theorem hostClassBytes_spellAccess (size : Size) (off : Offset) (data : Option Word) :
    hostClassBytes (spellAccess size off data) = true := by
  cases data with
  | none => rw [spellAccess, ← List.append_nil (halfBytes _), hostClassBytes_halfBytes, hostHeader_bit15]; rfl
  | some d => rw [spellAccess, hostClassBytes_halfBytes, hostHeader_bit15]; rfl

/-- A transaction of a host class spells no DMA_WR: the header of DMA_WR has bit 15 set (R82). -/
theorem ne_dmaWr_of_hostClassBytes {bytes rest : List Byte} {i : Instr} (host : hostClassBytes bytes = true)
    (h : decode bytes = .ok (i, rest)) (idx : Half) (data : Word) : i ≠ .dmaWr idx data := by
  rintro rfl
  obtain ⟨-, spelled⟩ := decodedBytesAreTheEncoding _ _ _ h
  rw [spelled, encode, List.append_assoc, hostClassBytes_halfBytes] at host
  exact absurd host (by decide)

/-- An operation that a reference entry has the block decode is no DMA_WR: the host cannot reach the DMA port. -/
theorem ne_dmaWr_of_isReference {p : Params} {e : Stimulus} {inp : Inputs} {bytes : List Byte} {i : Instr}
    (reference : e.isReference = true)
    (he : e = .txn inp bytes ∨ ∃ a z d off, e = .bus inp a z d ∧ p.offsetOf a = some off ∧ bytes = spellAccess z off d)
    (h : decode bytes = .ok (i, [])) (idx : Half) (data : Word) : i ≠ .dmaWr idx data := by
  have host : hostClassBytes bytes = true := by
    rcases he with rfl | ⟨_, z, d, off, -, -, rfl⟩
    · exact (Bool.and_eq_true_iff.mp reference).2
    · exact hostClassBytes_spellAccess z off d
  exact ne_dmaWr_of_hostClassBytes host h idx data

/-- Among the operations only DMA_WR sets DMA_OOR (R201). -/
theorem exec_dmaOor_clear {i : Instr} {s t : State} (not_dmaWr : ∀ idx data, i ≠ .dmaWr idx data)
    (clear : s.block.sticky.dmaOor = false) (h : exec i s = .next t) : t.block.sticky.dmaOor = false := by
  obtain ⟨cause, -, -⟩ := stickyBitsMoveOnlyByTheirCauses i s t .dmaOor h
  refine Bool.eq_false_iff.mpr fun raised => ?_
  obtain ⟨idx, data, rfl, -⟩ := cause clear raised
  exact not_dmaWr idx data rfl

/-- In a state of the invariant an enabled beat's DMA write lies inside the buffer, so it raises nothing (R186). -/
theorem State.Inv.beat_dmaOor {s : State} (h : s.Inv) (left : s.env.dmaRem ≠ 0) (w : Word) :
    ((s.setEnv s.env.beat).dmaWrite s.env.dmaIdx w).block.sticky.dmaOor = s.block.sticky.dmaOor := by
  have inside : s.env.dmaIdx < s.capacity := by
    have := h.dma_inside
    omega
  rw [State.dmaWrite_inside (s := s.setEnv s.env.beat) inside]
  rfl

/-- No entry of the reference environment raises DMA_OOR. -/
theorem State.Inv.runEntry_dmaOor_clear {s t : State} {e : Stimulus} (inv : s.Inv) (reference : e.isReference = true)
    (clear : s.block.sticky.dmaOor = false) (h : s.runEntry e = .next t) : t.block.sticky.dmaOor = false := by
  rcases State.runEntry_next h with ⟨inp, _, i, he, hd, hi⟩ | ⟨inp, _, _, _, -, rfl⟩ | ⟨w, -, -, rfl⟩ |
    ⟨w, _, -, -, left, rfl⟩ | ⟨a, r, err, _, _, -, -, hi⟩ | ⟨c, -, rfl⟩
  · exact exec_dmaOor_clear (s := s.present inp) (ne_dmaWr_of_isReference reference he hd) clear hi
  · exact clear
  · exact clear
  · exact (inv.beat_dmaOor left w).trans clear
  · exact exec_dmaOor_clear (s := (s.present ⟨none, a, r⟩).setEnv s.env.completeUsb) (by simp) clear hi
  · rfl

theorem State.configure_frame (s : State) (b : Block) :
    s.configure b = { s with block := (s.configure b).block } := by
  rcases State.configure_cases s b with ⟨-, e⟩ | ⟨-, e⟩ <;> rw [e] <;> rfl

/-- A DMA write changes the block only. -/
theorem State.dmaWrite_frame (s : State) (i : Nat) (w : Word) :
    s.dmaWrite i w = { s with block := (s.dmaWrite i w).block } := by
  rcases State.dmaWrite_cases s i w with ⟨-, e⟩ | ⟨-, e⟩ <;> rw [e] <;> rfl

/-- An operation changes the block, the environment and the read data only: the parameters, the inputs of its step and
the entries to come stay. -/
theorem exec_frame {i : Instr} {s t : State} (h : exec i s = .next t) :
    t = { s with block := t.block, env := t.env, readData := t.readData } := by
  cases i with
  | cmdService => rcases exec_service_cases h with ⟨-, e⟩ | ⟨-, e⟩ <;> rw [e]
  | epDone err => rw [exec_epDone_frame h]
  | cmdEnable => cases h; split <;> rfl
  | wrNominal d | wrStep d | wrTrig d => cases h; rw [State.configure_frame]
  | dmaWr idx data => cases h; rw [State.dmaWrite_frame]
  | rsvdPort => cases h
  | rsvdClass => cases h
  | _ => cases h; rfl

/-- Every entry leaves the entries to come, the reset input too (log 10). -/
theorem State.runEntry_agenda {s t : State} {e : Stimulus} (h : s.runEntry e = .next t) : t.agenda = s.agenda := by
  rcases State.runEntry_next h with ⟨inp, _, i, -, -, hi⟩ | ⟨inp, _, _, _, -, rfl⟩ | ⟨w, -, -, rfl⟩ |
    ⟨w, _, -, -, -, rfl⟩ | ⟨a, r, _, _, _, -, -, hi⟩ | ⟨c, -, rfl⟩
  · rw [exec_frame hi]; rfl
  · rfl
  · rfl
  · rw [State.dmaWrite_frame]; rfl
  · rw [exec_frame hi]; rfl
  · rfl

/-- What a run under ENV_REF keeps: the invariant, the premise itself, and DMA_OOR clear. -/
structure State.ReferenceClean (s : State) : Prop where
  inv : s.Inv
  reference : s.underReference
  dmaOor_clear : s.block.sticky.dmaOor = false

theorem State.ReferenceClean.step {s t : State} (clean : s.ReferenceClean) (h : step s = .next t) :
    t.ReferenceClean := by
  obtain ⟨inv, reference, clear⟩ := clean
  rcases step_next_cases h with ⟨-, rfl⟩ | ⟨e, more, presented, he⟩
  · exact ⟨inv, reference, clear⟩
  · rw [State.underReference, presented, List.forall_mem_cons] at reference
    obtain ⟨head, tail⟩ := reference
    have agenda_t : t.agenda = more := State.runEntry_agenda he
    exact {
      inv := stepKeepsTheInvariant s t inv h
      reference := by rwa [State.underReference, agenda_t]
      dmaOor_clear := (inv.beginEntry more).runEntry_dmaOor_clear head clear he }

/-- Settles O53: a reference entry reaches the buffer only by a beat, which the invariant keeps inside it, and every step
of a reference run keeps both. -/
theorem referenceRunsNeverRaiseDmaOor : Obligations.ReferenceRunsNeverRaiseDmaOor := by
  intro k s t inv reference clear run
  have clean : t.ReferenceClean := runSteps_keeps (fun _ _ => State.ReferenceClean.step) ⟨inv, reference, clear⟩ run
  exact clean.dmaOor_clear

/-! ### The answers to the block's requests (R183 to R185, R187) -/

/-- Settles O49, the channel's two answers to DMA_ARM. -/
theorem dmaArmIsAcceptedOrRefused : Obligations.DmaArmIsAcceptedOrRefused := by
  intro e inp n
  refine ⟨fun accepts => ?_, fun busy refuses => ?_⟩
  · rcases accepts with idle | restarts
    · exact if_pos idle
    · simp [Env.respond, Env.armDma, Env.startDma, restarts]
  · simp [Env.respond, Env.armDma, Env.record, busy, refuses]

/-- Settles O50, the controller's two answers to USB_WRITE. -/
theorem usbWriteIsAcceptedOrRefused : Obligations.UsbWriteIsAcceptedOrRefused := by
  intro e inp n ws
  refine ⟨fun accepted => if_pos accepted, fun refused => ?_⟩
  exact if_neg (Bool.eq_false_iff.mp refused)

/-! ### Capture (R183, R184) -/

/-- No response to the block turns capture off (R184). -/
theorem Env.respond_pdmEn {e : Env} (enabled : e.pdmEn = true) (inp : Inputs) (ev : Event) :
    (e.respond inp ev).pdmEn = true := by
  cases ev with
  | fifoClear => exact enabled
  | captureEnable => rfl
  | dmaArm n => exact (Env.armDma_pdmEn e inp.restart n).trans enabled
  | usbWrite n ws => exact (Env.takeUsb_pdmEn e inp.accept n ws).trans enabled

theorem State.rearm_pdmEn {s : State} (enabled : s.env.pdmEn = true) : s.rearm.env.pdmEn = true := by
  rcases State.rearm_cases s with e | e <;> rw [e]
  · exact Env.respond_pdmEn enabled _ _
  · exact enabled

theorem exec_epDone_pdmEn {s t : State} {err : Byte} (enabled : s.env.pdmEn = true)
    (h : exec (.epDone err) s = .next t) : t.env.pdmEn = true := by
  obtain ⟨u, rfl, hu⟩ := exec_epDone_next h
  have enabled_u : u.env.pdmEn = true := by
    rcases hu with ⟨rfl, -⟩ | ⟨-, ws, -, rfl⟩
    · exact enabled
    · exact Env.respond_pdmEn enabled _ _
  refine State.rearm_pdmEn ?_
  rwa [State.recount_env]

/-- SERVICE leaves the environment, or enables capture in its start sequence (R106). -/
theorem exec_service_pdmEn {s t : State} (enabled : s.env.pdmEn = true) (h : exec .cmdService s = .next t) :
    t.env.pdmEn = true := by
  cases hs : s.block.sr with
  | true =>
    obtain ⟨ws, -, rfl⟩ := (exec_service_pending hs).mp h
    exact Env.respond_pdmEn rfl _ _
  | false => rw [exec_service_idle hs] at h; cases h; exact enabled

theorem exec_pdmEn {i : Instr} {s t : State} (enabled : s.env.pdmEn = true) (h : exec i s = .next t) :
    t.env.pdmEn = true := by
  by_cases hv : i = .cmdService
  · subst hv; exact exec_service_pdmEn enabled h
  · by_cases hd : ∃ err, i = .epDone err
    · obtain ⟨err, rfl⟩ := hd; exact exec_epDone_pdmEn enabled h
    · obtain ⟨-, same_env⟩ := exec_emits_nothing hv (not_exists.mp hd) h
      rw [same_env]; exact enabled

theorem Env.push_pdmEn (e : Env) (depth : Nat) (w : Word) : (e.push depth w).pdmEn = e.pdmEn := by
  unfold Env.push; split <;> rfl

/-- Every entry but a reset with the collaborators keeps capture enabled. -/
theorem State.runEntry_pdmEn {s t : State} {e : Stimulus} (enabled : s.env.pdmEn = true) (not_reset : e ≠ .rst true)
    (h : s.runEntry e = .next t) : t.env.pdmEn = true := by
  rcases State.runEntry_next h with ⟨inp, _, i, -, -, hi⟩ | ⟨inp, _, _, _, -, rfl⟩ | ⟨w, -, -, rfl⟩ |
    ⟨w, _, -, -, -, rfl⟩ | ⟨a, r, _, _, _, -, -, hi⟩ | ⟨c, rfl, rfl⟩
  · exact exec_pdmEn (s := s.present inp) enabled hi
  · exact enabled
  · exact (Env.push_pdmEn s.env _ w).trans enabled
  · rw [State.dmaWrite_frame]; exact enabled
  · exact exec_pdmEn (s := (s.present ⟨none, a, r⟩).setEnv s.env.completeUsb) enabled hi
  · cases c with
    | true => exact absurd rfl not_reset
    | false => exact enabled

/-- Settles O52: the two responses, and a step that waits or takes an entry that is no reset with the collaborators. -/
theorem captureRequestsAreObeyed : Obligations.CaptureRequestsAreObeyed := by
  refine ⟨fun e inp => ⟨rfl, rfl⟩, fun s t h enabled not_reset => ?_⟩
  rcases step_next_cases h with ⟨-, rfl⟩ | ⟨e, more, presented, he⟩
  · exact enabled
  · exact State.runEntry_pdmEn (s := s.beginEntry more) enabled (fun reset => not_reset more (reset ▸ presented)) he

/-! ### The agents' own steps (R182, R188) and the reset input (R230 to R233) -/

/-- Settles O47: the step is enabled by capture, and the FIFO's depth decides between its two effects. -/
theorem pdmPushFillsTheFifo : Obligations.PdmPushFillsTheFifo := by
  intro s w more presented
  rw [step_cons presented]
  refine ⟨fun disabled => ?_, fun enabled room => ?_, fun enabled full => ?_⟩
  · exact if_neg (Bool.eq_false_iff.mp disabled)
  · have appended : s.env.push s.params.fifoDepth.toNat w = { s.env with fifo := s.env.fifo ++ [w] } := if_pos room
    rw [← appended]
    exact if_pos enabled
  · have lost : s.env.push s.params.fifoDepth.toNat w =
        { s.env with history := s.env.history ++ [.fifoOverflow] } := if_neg (Nat.not_lt.mpr full)
    rw [← lost]
    exact if_pos enabled

theorem State.usbStep_disabled {s : State} (none_in_flight : s.env.usbInflight = []) (accept restart : Bool)
    (err : Byte) : s.usbStep accept restart err = .refused (.notEnabled .usb) := by
  rw [State.usbStep, none_in_flight]

/-- The reference completion takes the head transfer off and runs EP_DONE on what is left. -/
theorem State.usbStep_inflight {s : State} {x : Nat × List Word} {xs : List (Nat × List Word)}
    (in_flight : s.env.usbInflight = x :: xs) (accept restart : Bool) (err : Byte) :
    s.usbStep accept restart err = exec (.epDone err) { s with
      inputs := { level := none, accept := accept, restart := restart }
      env := { s.env with usbInflight := xs } } := by
  rw [State.usbStep, Env.completeUsb, in_flight]
  rfl

/-- Settles O51: the step is enabled by a transfer in flight. -/
theorem referenceCompletionNeedsATransfer : Obligations.ReferenceCompletionNeedsATransfer := by
  intro s a r err more presented
  rw [step_cons presented]
  exact ⟨fun none_in_flight => State.usbStep_disabled (s := s.beginEntry more) none_in_flight a r err,
    fun _ _ in_flight => State.usbStep_inflight (s := s.beginEntry more) in_flight a r err⟩

/-- The reset value of NOMINAL, as a number (R29): WR_NOMINAL caps a written value in the same way. -/
theorem nominalAtReset_toNat (s : State) :
    (nominalAtReset s.params).toNat = min s.params.nominalReset.toNat s.params.capacity.toNat :=
  s.legalNominal_toNat s.params.nominalReset

/-- A step with nothing presented waits (R230, log 1). -/
theorem step_nil {s : State} (h : s.agenda = []) : step s = .next s := by
  unfold step State.runNext; rw [h]

/-- Settles O42: the reset state field by field, the environment by whether the collaborators are reset. -/
theorem resetGivesTheResetValues : Obligations.ResetGivesTheResetValues := by
  intro s c more presented
  rw [step_cons presented]
  refine ⟨_, rfl, rfl, rfl, rfl, nominalAtReset_toNat s, rfl, rfl, rfl, fun e => ?_, fun _ => rfl, rfl, fun with_env => ?_,
    fun alone => ?_, rfl, rfl, fun no_more => step_nil no_more⟩
  · cases e <;> rfl
  · subst with_env; exact ⟨rfl, rfl, rfl, rfl, rfl, rfl⟩
  · subst alone; rfl

end Sys2Proof.Machine

/-! The exceptions family (60_exceptions): the error causes that one operation can raise (R205). -/

namespace Sys2Proof.Machine

/-- An operation sets at most one sticky bit: the one bit of `stickyAfter_cases`. -/
theorem cause_unique_of_set {i : Instr} {s : State} {k : Sticky} {c c' : ErrorCause}
    (before : k.get c = false) (after : (stickyAfter i s k).get c = true)
    (before' : k.get c' = false) (after' : (stickyAfter i s k).get c' = true) : c = c' := by
  rcases stickyAfter_cases i s k with e | ⟨raised, -, e⟩ | ⟨d, -, e⟩ <;> rw [e] at after after'
  · simp [before] at after
  · have first : c = raised := by simpa [before] using after
    have second : c' = raised := by simpa [before'] using after'
    exact first.trans second.symm
  · simp [Sticky.get_clear, before] at after

/-- Settles O35: an operation sets one bit at most, and what clears a bit is a STATUS write. -/
theorem oneOperationRaisesOneCause : Obligations.OneOperationRaisesOneCause := by
  intro i s t c c' h
  obtain ⟨hsticky, -⟩ := exec_status h
  rw [hsticky]
  refine ⟨cause_unique_of_set, fun not_status before => eq_true_of_ne_false fun cleared => ?_⟩
  obtain ⟨d, status, -⟩ := statusWrite_of_cleared before cleared
  exact not_status d status

end Sys2Proof.Machine
